-- ==== Sys2Proof/Word.lean ====
section
/-! DEFINITION. The word types that values have between the registers. The widths of the registers themselves are
the named parameters of Sys2Proof/Config.lean, and the fields of State are declared over those names. -/

namespace Sys2Proof

/-- Eight bits: a memory byte, an immediate NN, the value of a general register or a timer (10_state R20, R27;
30_encoding R72). -/
abbrev Byte := BitVec 8

/-- Sixteen bits: an opcode, the value of I, PC or a stack entry (30_encoding R70; 10_state R22, R23, R25). -/
abbrev Word := BitVec 16

/-- The twelve bits of the address operand NNN (30_encoding R71). -/
abbrev Addr12 := BitVec 12

/-- The index of a general register, or the number of a key: 0 to 15, every value legal (30_encoding R72). -/
abbrev RegIx := Fin 16

end Sys2Proof
end

