-- ==== Sys2Proof/Syntax.lean ====
section
/-! DEFINITION. The instructions: one constructor for each of the 35 rows of spec/opcode_table.json, in the
order of the map in 30_encoding section 3. Operand fields are those of 30_encoding R71. -/

namespace Sys2Proof

/-- One instruction of the machine, its operands already cut out of the word. -/
inductive Instr where
  /-- 0NNN, `SYS NNN`: the legacy call (42_control_flow R129). -/
  | sys (nnn : Addr12)
  /-- 00E0, `CLS` (43_display R141). -/
  | cls
  /-- 00EE, `RET` (42_control_flow R124). -/
  | ret
  /-- 1NNN, `JP NNN` (42_control_flow R121). -/
  | jp (nnn : Addr12)
  /-- 2NNN, `CALL NNN` (42_control_flow R123). -/
  | call (nnn : Addr12)
  /-- 3XNN, `SE VX, NN` (42_control_flow R125). -/
  | seImm (x : RegIx) (nn : Byte)
  /-- 4XNN, `SNE VX, NN` (42_control_flow R126). -/
  | sneImm (x : RegIx) (nn : Byte)
  /-- 5XY0, `SE VX, VY` (42_control_flow R127). -/
  | seReg (x y : RegIx)
  /-- 6XNN, `LD VX, NN` (41_arith_logic R101). -/
  | ldImm (x : RegIx) (nn : Byte)
  /-- 7XNN, `ADD VX, NN` (41_arith_logic R102). -/
  | addImm (x : RegIx) (nn : Byte)
  /-- 8XY0, `LD VX, VY` (41_arith_logic R103). -/
  | ldReg (x y : RegIx)
  /-- 8XY1, `OR VX, VY` (41_arith_logic R104). -/
  | or (x y : RegIx)
  /-- 8XY2, `AND VX, VY` (41_arith_logic R105). -/
  | and (x y : RegIx)
  /-- 8XY3, `XOR VX, VY` (41_arith_logic R106). -/
  | xor (x y : RegIx)
  /-- 8XY4, `ADD VX, VY` (41_arith_logic R107). -/
  | addReg (x y : RegIx)
  /-- 8XY5, `SUB VX, VY` (41_arith_logic R108). -/
  | sub (x y : RegIx)
  /-- 8XY6, `SHR VX`; Y is accepted with any value and ignored (41_arith_logic R109, 30_encoding R71). -/
  | shr (x y : RegIx)
  /-- 8XY7, `SUBN VX, VY` (41_arith_logic R110). -/
  | subn (x y : RegIx)
  /-- 8XYE, `SHL VX`; Y is accepted with any value and ignored (41_arith_logic R111, 30_encoding R71). -/
  | shl (x y : RegIx)
  /-- 9XY0, `SNE VX, VY` (42_control_flow R128). -/
  | sneReg (x y : RegIx)
  /-- ANNN, `LD I, NNN` (46_memory_block R170). -/
  | ldI (nnn : Addr12)
  /-- BNNN, `JP V0, NNN` (42_control_flow R122). -/
  | jpV0 (nnn : Addr12)
  /-- CXNN, `RND VX, NN` (41_arith_logic R112). -/
  | rnd (x : RegIx) (nn : Byte)
  /-- DXYN, `DRW VX, VY, N`; N is the height in rows, 0 to 15 (43_display R142). -/
  | drw (x y : RegIx) (n : Fin 16)
  /-- EX9E, `SKP VX` (44_input R151). -/
  | skp (x : RegIx)
  /-- EXA1, `SKNP VX` (44_input R152). -/
  | sknp (x : RegIx)
  /-- FX07, `LD VX, DT` (45_timers R161). -/
  | ldVxDt (x : RegIx)
  /-- FX0A, `LD VX, K` (44_input R153). -/
  | ldVxK (x : RegIx)
  /-- FX15, `LD DT, VX` (45_timers R162). -/
  | ldDtVx (x : RegIx)
  /-- FX18, `LD ST, VX` (45_timers R163). -/
  | ldStVx (x : RegIx)
  /-- FX1E, `ADD I, VX` (46_memory_block R171). -/
  | addI (x : RegIx)
  /-- FX29, `LD F, VX` (46_memory_block R172). -/
  | ldFVx (x : RegIx)
  /-- FX33, `LD B, VX` (46_memory_block R173). -/
  | ldBVx (x : RegIx)
  /-- FX55, `LD [I], VX` (46_memory_block R174). -/
  | ldMemVx (x : RegIx)
  /-- FX65, `LD VX, [I]` (46_memory_block R175). -/
  | ldVxMem (x : RegIx)
deriving DecidableEq, Repr

end Sys2Proof
end

