-- ==== Sys2Proof/WellFormed.lean ====
section
/-! DEFINITION. Which terms of Instr are instructions. The types of the fields already bound every operand
(30_encoding R72: every index and every immediate value is legal), so one check is left. -/

namespace Sys2Proof

/-- The legacy call is every word of family 0 except the two literals 0x00E0 and 0x00EE (30_encoding R74);
every other term is well formed. -/
def Instr.wellFormed : Instr → Bool
  | .sys nnn => nnn != 0x0E0#12 && nnn != 0x0EE#12
  | _ => true

end Sys2Proof
end

