-- ==== Sys2Proof/Decode.lean ====
section
/-! DEFINITION. The decoder and the encoder, both written from the opcode map of 30_encoding section 3.
The assignment of operations to bit patterns and the places of the fields are the spec's own supply
(30_encoding R71, R75 to R78; log entries 2, 3, 4). -/

namespace Sys2Proof

/-! ### The fields of an opcode (30_encoding R71) -/

/-- F, the family: op[15:12]. -/
def fieldF (op : Word) : BitVec 4 := op.extractLsb' 12 4
/-- X, the first register operand: op[11:8]. -/
def fieldX (op : Word) : RegIx := (op.extractLsb' 8 4).toFin
/-- Y, the second register operand: op[7:4]. -/
def fieldY (op : Word) : RegIx := (op.extractLsb' 4 4).toFin
/-- N, the lowest nibble: op[3:0]. -/
def fieldN (op : Word) : Fin 16 := (op.extractLsb' 0 4).toFin
/-- NN, the low byte: op[7:0]. -/
def fieldNN (op : Word) : Byte := op.extractLsb' 0 8
/-- NNN, the address: op[11:0]. -/
def fieldNNN (op : Word) : Addr12 := op.extractLsb' 0 12

/-! ### Decoding -/

/-- Why a word is no instruction: one name for each row of the table of 30_encoding R79 but the legacy call's
(which is the instruction SYS), and one for a byte string too short to hold a word. -/
inductive Reject where
  /-- Fewer than two bytes. -/
  | tooShort
  /-- 5XYN with N not 0. -/
  | family5
  /-- 8XYN with N in 8, 9, A, B, C, D, F. -/
  | family8
  /-- 9XYN with N not 0. -/
  | family9
  /-- EXNN with NN neither 9E nor A1. -/
  | familyE
  /-- FXNN with NN none of the nine low bytes of family F. -/
  | familyF
deriving DecidableEq, Repr

/-- Family 0: two literals, and the legacy call for every other word (30_encoding R74). -/
def decodeFamily0 (op : Word) : Except Reject Instr :=
  if op = 0x00E0#16 then .ok .cls
  else if op = 0x00EE#16 then .ok .ret
  else .ok (.sys (fieldNNN op))

/-- Family 8: nine sub-operations by the lowest nibble (30_encoding R75). -/
def decodeFamily8 (op : Word) : Except Reject Instr :=
  let x := fieldX op
  let y := fieldY op
  match (fieldN op).val with
  | 0x0 => .ok (.ldReg x y)
  | 0x1 => .ok (.or x y)
  | 0x2 => .ok (.and x y)
  | 0x3 => .ok (.xor x y)
  | 0x4 => .ok (.addReg x y)
  | 0x5 => .ok (.sub x y)
  | 0x6 => .ok (.shr x y)
  | 0x7 => .ok (.subn x y)
  | 0xE => .ok (.shl x y)
  | _ => .error .family8

/-- Family E: two operations by the whole low byte (30_encoding R76). -/
def decodeFamilyE (op : Word) : Except Reject Instr :=
  match (fieldNN op).toNat with
  | 0x9E => .ok (.skp (fieldX op))
  | 0xA1 => .ok (.sknp (fieldX op))
  | _ => .error .familyE

/-- Family F: nine operations by the whole low byte (30_encoding R77). -/
def decodeFamilyF (op : Word) : Except Reject Instr :=
  let x := fieldX op
  match (fieldNN op).toNat with
  | 0x07 => .ok (.ldVxDt x)
  | 0x0A => .ok (.ldVxK x)
  | 0x15 => .ok (.ldDtVx x)
  | 0x18 => .ok (.ldStVx x)
  | 0x1E => .ok (.addI x)
  | 0x29 => .ok (.ldFVx x)
  | 0x33 => .ok (.ldBVx x)
  | 0x55 => .ok (.ldMemVx x)
  | 0x65 => .ok (.ldVxMem x)
  | _ => .error .familyF

/-- The decoder: dispatch by family first, total on all 65536 words (30_encoding R73, R78). The last arm is
family F, the one value of four bits that is left. -/
def decode (op : Word) : Except Reject Instr :=
  match (fieldF op).toNat with
  | 0x0 => decodeFamily0 op
  | 0x1 => .ok (.jp (fieldNNN op))
  | 0x2 => .ok (.call (fieldNNN op))
  | 0x3 => .ok (.seImm (fieldX op) (fieldNN op))
  | 0x4 => .ok (.sneImm (fieldX op) (fieldNN op))
  | 0x5 => if fieldN op = 0 then .ok (.seReg (fieldX op) (fieldY op)) else .error .family5
  | 0x6 => .ok (.ldImm (fieldX op) (fieldNN op))
  | 0x7 => .ok (.addImm (fieldX op) (fieldNN op))
  | 0x8 => decodeFamily8 op
  | 0x9 => if fieldN op = 0 then .ok (.sneReg (fieldX op) (fieldY op)) else .error .family9
  | 0xA => .ok (.ldI (fieldNNN op))
  | 0xB => .ok (.jpV0 (fieldNNN op))
  | 0xC => .ok (.rnd (fieldX op) (fieldNN op))
  | 0xD => .ok (.drw (fieldX op) (fieldY op) (fieldN op))
  | 0xE => decodeFamilyE op
  | _ => decodeFamilyF op

/-- The word of two consecutive bytes: the byte at the lower address is the high half (20_memory R56). -/
def wordOfBytes (hi lo : Byte) : Word := hi ++ lo

/-- The two bytes of a word as memory holds them, lowest address first (20_memory R56). -/
def bytesOfWord (op : Word) : List Byte := [op.extractLsb' 8 8, op.extractLsb' 0 8]

/-- The instruction at the head of a byte string and the bytes after it (30_encoding R70: two bytes each). -/
def decodeBytes : List Byte → Except Reject (Instr × List Byte)
  | hi :: lo :: rest =>
    match decode (wordOfBytes hi lo) with
    | .ok i => .ok (i, rest)
    | .error r => .error r
  | _ => .error .tooShort

/-! ### Encoding -/

/-- Format ADDR: F NNN. -/
def packAddr (f : BitVec 4) (nnn : Addr12) : Word := f ++ nnn
/-- Formats XIMM and XSEL: F X NN. -/
def packXNN (f : BitVec 4) (x : RegIx) (nn : Byte) : Word := f ++ (BitVec.ofFin x : BitVec 4) ++ nn
/-- Formats XY and XYN: F X Y N. -/
def packXYN (f : BitVec 4) (x y : RegIx) (n : Fin 16) : Word :=
  f ++ (BitVec.ofFin x : BitVec 4) ++ (BitVec.ofFin y : BitVec 4) ++ (BitVec.ofFin n : BitVec 4)

/-- The word of an instruction, from the patterns of the map (30_encoding section 3). -/
def encode : Instr → Word
  | .sys nnn => packAddr 0x0#4 nnn
  | .cls => 0x00E0#16
  | .ret => 0x00EE#16
  | .jp nnn => packAddr 0x1#4 nnn
  | .call nnn => packAddr 0x2#4 nnn
  | .seImm x nn => packXNN 0x3#4 x nn
  | .sneImm x nn => packXNN 0x4#4 x nn
  | .seReg x y => packXYN 0x5#4 x y 0x0
  | .ldImm x nn => packXNN 0x6#4 x nn
  | .addImm x nn => packXNN 0x7#4 x nn
  | .ldReg x y => packXYN 0x8#4 x y 0x0
  | .or x y => packXYN 0x8#4 x y 0x1
  | .and x y => packXYN 0x8#4 x y 0x2
  | .xor x y => packXYN 0x8#4 x y 0x3
  | .addReg x y => packXYN 0x8#4 x y 0x4
  | .sub x y => packXYN 0x8#4 x y 0x5
  | .shr x y => packXYN 0x8#4 x y 0x6
  | .subn x y => packXYN 0x8#4 x y 0x7
  | .shl x y => packXYN 0x8#4 x y 0xE
  | .sneReg x y => packXYN 0x9#4 x y 0x0
  | .ldI nnn => packAddr 0xA#4 nnn
  | .jpV0 nnn => packAddr 0xB#4 nnn
  | .rnd x nn => packXNN 0xC#4 x nn
  | .drw x y n => packXYN 0xD#4 x y n
  | .skp x => packXNN 0xE#4 x 0x9E#8
  | .sknp x => packXNN 0xE#4 x 0xA1#8
  | .ldVxDt x => packXNN 0xF#4 x 0x07#8
  | .ldVxK x => packXNN 0xF#4 x 0x0A#8
  | .ldDtVx x => packXNN 0xF#4 x 0x15#8
  | .ldStVx x => packXNN 0xF#4 x 0x18#8
  | .addI x => packXNN 0xF#4 x 0x1E#8
  | .ldFVx x => packXNN 0xF#4 x 0x29#8
  | .ldBVx x => packXNN 0xF#4 x 0x33#8
  | .ldMemVx x => packXNN 0xF#4 x 0x55#8
  | .ldVxMem x => packXNN 0xF#4 x 0x65#8

/-- The bytes of an instruction as memory holds them. -/
def encodeBytes (i : Instr) : List Byte := bytesOfWord (encode i)

/-! ### The opcode table's numbering -/

/-- The word spec/opcode_table.json numbers `w`: `nbits` bits, bit 0 the least significant bit of the first
word, every bit above them 0. -/
def tableWord (nbits w : Nat) : Word := BitVec.ofNat 16 (w % 2 ^ nbits)

/-- What the decoder reads from the bytes of the table's word `w` as memory holds them. -/
def decodeTableWord (nbits w : Nat) : Option Instr :=
  match decodeBytes (bytesOfWord (tableWord nbits w)) with
  | .ok (i, _) => some i
  | .error _ => none

end Sys2Proof
end

