-- ==== Sys2Proof/Config.lean ====
section
/-! DEFINITION. What is fixed for the machine: the named parameters of 00_scope R5 with the values the spec
gives, and the free values. The 80 bytes of FONT stand in Sys2Proof/Machine/Font.lean. -/

namespace Sys2Proof.Config

/-- MEM_SIZE: bytes of memory. -/
@[simp] abbrev memSize : Nat := 4096
/-- The highest valid address, MEM_SIZE - 1 = 0xFFF (20_memory R59). -/
@[simp] abbrev maxAddr : Nat := 0xFFF
/-- PROG_BASE: load offset of the program and reset value of PC. -/
@[simp] abbrev progBase : Nat := 0x200
/-- ROM_MAX = MEM_SIZE - PROG_BASE: the largest ROM the loader accepts. -/
@[simp] abbrev romMax : Nat := 3584
/-- FONT_BASE: address of glyph 0. -/
@[simp] abbrev fontBase : Nat := 0
/-- GLYPH_BYTES: bytes per font glyph. -/
@[simp] abbrev glyphBytes : Nat := 5
/-- FONT_BYTES = 16 * GLYPH_BYTES: size of the font region. -/
@[simp] abbrev fontBytes : Nat := 80
/-- NUM_REGS: general registers. -/
@[simp] abbrev numRegs : Nat := 16
/-- REG_WIDTH: bits per general register. -/
@[simp] abbrev regWidth : Nat := 8
/-- FLAG_REG: index of the flag register VF. -/
@[simp] abbrev flagReg : RegIx := 15
/-- I_WIDTH: bits of the address register. -/
@[simp] abbrev iWidth : Nat := 16
/-- PC_WIDTH: bits of the program counter. -/
@[simp] abbrev pcWidth : Nat := 16
/-- STACK_DEPTH: entries of the return stack. -/
@[simp] abbrev stackDepth : Nat := 16
/-- STACK_ENTRY_WIDTH: bits per stack entry; entries hold PC values (decision D7, log entry 9). -/
@[simp] abbrev stackEntryWidth : Nat := 16
/-- TIMER_WIDTH: bits of DT and of ST. -/
@[simp] abbrev timerWidth : Nat := 8
/-- FB_W: framebuffer columns. -/
@[simp] abbrev fbW : Nat := 64
/-- FB_H: framebuffer rows. -/
@[simp] abbrev fbH : Nat := 32
/-- NUM_KEYS: keys of the keypad, numbered from 0. -/
@[simp] abbrev numKeys : Nat := 16
/-- INSTR_BYTES: bytes per instruction. -/
@[simp] abbrev instrBytes : Nat := 2
/-- TICK_HZ: the host's conventional tick rate. No rule depends on it, and nothing reads it (60_exceptions R217). -/
@[simp] abbrev tickHz : Nat := 60

/-- The free value of the `n`th random byte drawn, where the host has fixed none: nothing constrains it and no
law relates two draws (10_state R36, 41_arith_logic R112; log entry 18). -/
opaque freeRand : Nat → Byte

/-- The free value of the sixteen key levels at the `n`th sample, where the host has fixed none: nothing
constrains two samples to agree (10_state R34; log entry 19). -/
opaque freeKeys : Nat → Word

end Sys2Proof.Config
end

