-- ==== Sys2Proof/Machine/Flags.lean ====
section
/-! DEFINITION. Every flag computation of the machine. The one flag is VF = V[15]; each instruction that
writes it writes exactly 0 or 1 (10_state R21, 41_arith_logic R100). -/

namespace Sys2Proof.Machine

/-- A flag as the byte VF receives. -/
def flagByte (b : Bool) : Byte := if b then 1 else 0

/-- Carry out of an 8-bit sum: the exact sum exceeds 255 (41_arith_logic R107). -/
def carryOut (a b : Byte) : Bool := decide (a.toNat + b.toNat > 255)

/-- No borrow in `a - b`: the exact difference is not negative (41_arith_logic R108, R110). -/
def noBorrow (a b : Byte) : Bool := decide (b.toNat ≤ a.toNat)

/-- The bit a right shift by one moves out (41_arith_logic R109). -/
def shiftedOutRight (a : Byte) : Bool := a.getLsbD 0

/-- The bit a left shift by one moves out (41_arith_logic R111). -/
def shiftedOutLeft (a : Byte) : Bool := a.getLsbD 7

end Sys2Proof.Machine
end

