-- ==== Sys2Proof/Machine/State.lean ====
section
/-! DEFINITION. The state of the machine: the architectural tuple of 10_state, field for field, and beside it
one field for the outside world as plain data. -/

namespace Sys2Proof.Machine

/-- The four fatal conditions a Step can raise (60_exceptions R200). -/
inductive FatalKind where
  | decodeError
  | stackOverflow
  | stackUnderflow
  | outOfBounds
deriving DecidableEq, Repr

/-- The reference number the spec gives each kind (60_exceptions R200). -/
def FatalKind.code : FatalKind → Nat
  | .decodeError => 1
  | .stackOverflow => 2
  | .stackUnderflow => 3
  | .outOfBounds => 4

/-- The control state of the sequencer (10_state R31). -/
inductive Status where
  /-- The next Step fetches and executes. -/
  | running
  /-- FX0A with destination `x` has executed and no key has arrived. -/
  | awaitingKey (x : RegIx)
  /-- Terminal: the condition, the address of the instruction that raised it, and the word fetched there, or
  none when the fetch itself raised (60_exceptions R207). -/
  | fatal (kind : FatalKind) (pc : BitVec Config.pcWidth) (opcode : Option Word)
deriving DecidableEq, Repr

/-- Memory as data: (address, byte) pairs in the canonical form `Memory.wf` of Machine/Ops.lean. -/
abbrev Memory := List Host.Cell

/-- FB[y][x]: 32 rows from the top, each of 64 pixels from the left (10_state R29). -/
abbrev Framebuffer := Vector (Vector Bool Config.fbW) Config.fbH

/-- The events the host applies to the core (10_state R33). -/
inductive HostCall where
  | reset
  | load (bytes : List Byte)
  | step
  | timerTick
  /-- `k` is the number the host's table gives the key; 0 to 15 are keypad keys (10_state R35). -/
  | keyEvent (k : Nat)
  | clearDirty
deriving DecidableEq, Repr

/-- The outside world as plain data: no part of it is the spec's state. Each field is the model's own
(log entries 18, 19, 24, 25, 27). -/
structure Env where
  /-- Host events that wait, oldest first; when none waits the next event is a Step. -/
  calls : List HostCall
  /-- Random bytes the host has already fixed, next draw first; past them a draw is a free value. -/
  rands : List Byte
  /-- Random bytes drawn so far: the argument of `Config.freeRand`. -/
  draws : Nat
  /-- Key levels the host has already fixed, next sample first, bit k for key k; past them a sample is a free value. -/
  keySamples : List Word
  /-- Key samples made so far: the argument of `Config.freeKeys`. -/
  samples : Nat
  /-- A Step has been made since the last Reset, so a Load has no meaning any more (70_reset R242). -/
  started : Bool
deriving DecidableEq, Repr

/-- The architectural state (10_state, the tuple at its head) and the outside world. -/
structure State where
  /-- V[0] to V[15]; V[15] is the flag register VF (R20, R21). -/
  v : Vector (BitVec Config.regWidth) Config.numRegs
  /-- The address register (R22). -/
  i : BitVec Config.iWidth
  /-- The program counter (R23). -/
  pc : BitVec Config.pcWidth
  /-- The stack pointer: the number of return-stack entries in use, 0 to 16 (R26). -/
  sp : Fin (Config.stackDepth + 1)
  /-- The return stack (R25). -/
  stk : Vector (BitVec Config.stackEntryWidth) Config.stackDepth
  /-- The delay timer (R27). -/
  dt : BitVec Config.timerWidth
  /-- The sound timer (R28). -/
  st : BitVec Config.timerWidth
  /-- The memory (20_memory R50). -/
  mem : Memory
  /-- The framebuffer (R29). -/
  fb : Framebuffer
  /-- The framebuffer-dirty flag (R30). -/
  dirty : Bool
  /-- The control state (R31). -/
  status : Status
  /-- The outside world. -/
  env : Env
deriving DecidableEq, Repr

/-- Why a step ends in a fault: never. The four fatal conditions of the spec are next states with status Fatal
(60_exceptions R206), and a LoadError is a next state with nothing changed (70_reset R242), so there is no
constructor and no step can fault. -/
inductive Fault
deriving DecidableEq, Repr

/-- Why a step has no meaning. -/
inductive Refusal where
  /-- Raised by an arm of `exec` whose instruction has no meaning yet. Safe: the run stops. No arm does. -/
  | notModelled (mnemonic : String)
  /-- Raised by the host's Load after the first Step: "A model refuses (gives no meaning to) a Load at any
  other time" (70_reset R242). Safe: the run stops. -/
  | loadAfterStep
deriving DecidableEq, Repr

/-- What a step, a meaning or a host event answers. -/
abbrev StepResult := Host.Outcome State Fault Refusal

/-- The outside world of the reset state: nothing waits and nothing is fixed (log entry 27). -/
def Env.reset : Env where
  calls := []
  rands := []
  draws := 0
  keySamples := []
  samples := 0
  started := false

/-- The machine right after the Reset event, as the table of 10_state R41 gives it. Memory lists nothing,
because an unlisted address reads as its reset content: FONT in the font region, 0 elsewhere. -/
def State.reset : State where
  v := Vector.replicate Config.numRegs 0
  i := 0
  pc := BitVec.ofNat 16 Config.progBase
  sp := 0
  stk := Vector.replicate Config.stackDepth 0
  dt := 0
  st := 0
  mem := []
  fb := Vector.replicate Config.fbH (Vector.replicate Config.fbW false)
  dirty := false
  status := .running
  env := Env.reset

end Sys2Proof.Machine
end

