-- ==== Sys2Proof/Machine/Operands.lean ====
section
/-! DEFINITION. Operand forms and the values instructions compute from them, apart from flags and state. -/

namespace Sys2Proof.Machine

/-- NNN as a 16-bit value (30_encoding R72). -/
def zextNNN (nnn : Addr12) : Word := nnn.zeroExtend 16

/-- A byte as a 16-bit value. -/
def zextByte (b : Byte) : Word := b.zeroExtend 16

/-- An 8-bit sum, the carry discarded (41_arith_logic R102, R107). -/
def sum8 (a b : Byte) : Byte := BitVec.ofNat 8 (a.toNat + b.toNat)

/-- An 8-bit difference floored at zero: the exact difference where it is not negative, else 0
(41_arith_logic R108, R110). -/
def floorSub (a b : Byte) : Byte := BitVec.ofNat 8 (a.toNat - b.toNat)

/-- Logical right shift by one (41_arith_logic R109). -/
def halve (a : Byte) : Byte := a >>> 1

/-- Left shift by one, masked to eight bits (41_arith_logic R111). -/
def double (a : Byte) : Byte := a <<< 1

/-- The target of the jump plus offset: a 16-bit sum, not masked to 12 bits (42_control_flow R122). -/
def offsetTarget (nnn : Addr12) (off : Byte) : Word := zextNNN nnn + zextByte off

/-- The address register plus a register, modulo 65536 (46_memory_block R171). -/
def addToI (i : Word) (b : Byte) : Word := BitVec.ofNat 16 (i.toNat + b.toNat)

/-- The address of the font glyph for the whole 8-bit value, not masked to a digit (46_memory_block R172). -/
def glyphAddress (b : Byte) : Word := BitVec.ofNat 16 (Config.fontBase + b.toNat * Config.glyphBytes)

/-- The three decimal digits, hundreds first, one byte each (46_memory_block R173). -/
def bcdDigits (b : Byte) : List Byte :=
  [BitVec.ofNat 8 (b.toNat / 100), BitVec.ofNat 8 (b.toNat / 10 % 10), BitVec.ofNat 8 (b.toNat % 10)]

/-- An access to `len` bytes from `base` touches an address above 0xFFF; the sum is over the integers and does
not wrap (20_memory R59, 46_memory_block R177). No access touches nothing. -/
def touchesOutside (base len : Nat) : Bool := decide (0 < len ∧ Config.maxAddr < base + len - 1)

/-- A key index names no key (44_input R150). -/
def noSuchKey (b : Byte) : Bool := decide (Config.numKeys ≤ b.toNat)

end Sys2Proof.Machine
end

