-- ==== Sys2Proof/Machine/Ops.lean ====
section
/-! DEFINITION. The named operations over memory, framebuffer, registers, stack and inputs, and taking a
fatal condition. Every meaning is written over these. -/

namespace Sys2Proof.Machine

/-! ### Memory (20_memory R50 to R61) -/

/-- The canonical form of memory: addresses strictly rising, every one inside memory, and no entry equal to
what an unlisted address reads as (log entry 28). -/
abbrev Memory.wf (m : Memory) : Prop :=
  m.Pairwise (fun c d => c.1 < d.1) ∧ ∀ c ∈ m, c.1 < Config.memSize ∧ c.2 ≠ Config.resetByte c.1

/-- The byte at an address; an unlisted address reads as its reset content. -/
def Memory.read : Memory → Nat → Byte
  | [], a => Config.resetByte a
  | (b, w) :: rest, a => if a = b then w else Memory.read rest a

/-- The memory without an entry for the address. -/
def Memory.erase : Memory → Nat → Memory
  | [], _ => []
  | (b, w) :: rest, a => if a = b then rest else (b, w) :: Memory.erase rest a

/-- The memory with an entry for the address, in its place. -/
def Memory.insert : Memory → Nat → Byte → Memory
  | [], a, x => [(a, x)]
  | (b, w) :: rest, a, x =>
    if a < b then (a, x) :: (b, w) :: rest
    else if a = b then (a, x) :: rest
    else (b, w) :: Memory.insert rest a x

/-- Storing one byte: writing what an unlisted address reads as removes the entry. -/
def Memory.write (m : Memory) (a : Nat) (x : Byte) : Memory :=
  if x = Config.resetByte a then m.erase a else m.insert a x

/-- Storing consecutive bytes, the first at the given address. -/
def Memory.writeBytes : Memory → Nat → List Byte → Memory
  | m, _, [] => m
  | m, a, x :: xs => Memory.writeBytes (m.write a x) (a + 1) xs

/-- `len` consecutive bytes. -/
def Memory.readBytes (m : Memory) (a len : Nat) : List Byte :=
  (List.range len).map (fun k => m.read (a + k))

/-- The big-endian word at an address (20_memory R56). -/
def Memory.readWord (m : Memory) (a : Nat) : Word := wordOfBytes (m.read a) (m.read (a + 1))

/-! ### Framebuffer (10_state R29, 43_display R140) -/

/-- A coordinate pair names a pixel of the grid. -/
def onScreen (x y : Nat) : Bool := decide (y < Config.fbH ∧ x < Config.fbW)

/-- FB[y][x]; there is no pixel off the grid. -/
def Framebuffer.pixel (fb : Framebuffer) (x y : Nat) : Bool :=
  if h : y < Config.fbH ∧ x < Config.fbW then (fb[y]'h.1)[x]'h.2 else false

/-- FB[y][x] <- FB[y][x] ^ 1. -/
def Framebuffer.flip (fb : Framebuffer) (x y : Nat) : Framebuffer :=
  if h : y < Config.fbH ∧ x < Config.fbW then
    fb.set y ((fb[y]'h.1).set x (!(fb[y]'h.1)[x]'h.2) h.2) h.1
  else fb

/-- Every pixel 0. -/
def Framebuffer.blank : Framebuffer := Vector.replicate Config.fbH (Vector.replicate Config.fbW false)

/-- One sprite bit of the draw (43_display R142): a 0 bit, a row beyond the bottom edge and a column beyond the
right edge draw nothing; otherwise the pixel is XORed, and a lit one counts as a hit. -/
def drawBit (bit : Bool) (x y : Nat) (acc : Framebuffer × Bool) : Framebuffer × Bool :=
  if bit && onScreen x y then (Framebuffer.flip acc.1 x y, acc.2 || Framebuffer.pixel acc.1 x y) else acc

/-- One sprite row: the eight bits of the byte, most significant first, from column `x0` on. -/
def drawRow (b : Byte) (x0 y : Nat) (acc : Framebuffer × Bool) : Framebuffer × Bool :=
  (List.range 8).foldl (fun acc c => drawBit (b.getLsbD (7 - c)) (x0 + c) y acc) acc

/-- The sprite's rows from row `y0` down; the flag is 0 before the first row. -/
def drawRows : List Byte → Nat → Nat → Framebuffer × Bool → Framebuffer × Bool
  | [], _, _, acc => acc
  | b :: bs, x0, y, acc => drawRows bs x0 (y + 1) (drawRow b x0 y acc)

/-- The framebuffer after a draw and whether a lit pixel was erased (43_display R142). -/
def drawSprite (fb : Framebuffer) (x0 y0 : Nat) (rows : List Byte) : Framebuffer × Bool :=
  drawRows rows x0 y0 (fb, false)

/-! ### Registers and the other fields -/

/-- V[x]. -/
def State.reg (s : State) (x : RegIx) : Byte := s.v[x.val]
/-- V[x] <- b. -/
def State.setReg (s : State) (x : RegIx) (b : Byte) : State := { s with v := s.v.set x.val b }
/-- All sixteen registers at once. -/
def State.setRegs (s : State) (v : Vector Byte Config.numRegs) : State := { s with v := v }
/-- I <- w. -/
def State.setI (s : State) (w : Word) : State := { s with i := w }
/-- PC <- w. -/
def State.setPc (s : State) (w : Word) : State := { s with pc := w }
/-- DT <- b. -/
def State.setDt (s : State) (b : Byte) : State := { s with dt := b }
/-- ST <- b. -/
def State.setSt (s : State) (b : Byte) : State := { s with st := b }
/-- Memory replaced. -/
def State.setMem (s : State) (m : Memory) : State := { s with mem := m }
/-- A new picture, and the signal to the host that there is one (10_state R30). -/
def State.setFb (s : State) (fb : Framebuffer) : State := { s with fb := fb, dirty := true }
/-- dirty <- b. -/
def State.setDirty (s : State) (b : Bool) : State := { s with dirty := b }
/-- status <- t. -/
def State.setStatus (s : State) (t : Status) : State := { s with status := t }
/-- The outside world replaced. -/
def State.setEnv (s : State) (e : Env) : State := { s with env := e }

/-- V[x] <- r, and after it VF <- flag: with x = 15 the flag is what stays (41_arith_logic R100 (c)). -/
def State.setRegFlag (s : State) (x : RegIx) (r : Byte) (flag : Bool) : State :=
  (s.setReg x r).setReg Config.flagReg (flagByte flag)

/-- PC <- PC + 2, the last effect of an auto-advance operation (40_step_cycle R93). -/
def State.advance (s : State) : State := s.setPc (s.pc + BitVec.ofNat 16 Config.instrBytes)

/-- PC <- PC + (c ? 4 : 2): the skip operations (42_control_flow R125). -/
def State.skipIf (s : State) (c : Bool) : State :=
  s.setPc (s.pc + BitVec.ofNat 16 (if c then 2 * Config.instrBytes else Config.instrBytes))

/-- The registers V[0] to V[x], first register first (46_memory_block R174). -/
def State.regsUpTo (s : State) (x : RegIx) : List Byte := s.v.toList.take (x.val + 1)

/-- V[0] to V[x] taken from memory at `base`, the others kept (46_memory_block R175). -/
def State.loadedRegs (s : State) (x : RegIx) (base : Nat) : Vector Byte Config.numRegs :=
  Vector.ofFn fun j => if j.val ≤ x.val then s.mem.read (base + j.val) else s.v[j.val]

/-! ### The return stack (10_state R25, R26) -/

/-- STK[SP] <- w; SP <- SP + 1, where the stack is not full. -/
def State.push? (s : State) (w : Word) : Option State :=
  if h : s.sp.val < Config.stackDepth then
    some { s with stk := s.stk.set s.sp.val w h, sp := ⟨s.sp.val + 1, Nat.succ_lt_succ h⟩ }
  else none

/-- SP <- SP - 1 and the entry just uncovered, which is left in place, where the stack is not empty. -/
def State.pop? (s : State) : Option (Word × State) :=
  if h : 0 < s.sp.val then
    have hlt : s.sp.val - 1 < Config.stackDepth :=
      Nat.lt_of_lt_of_le (Nat.sub_lt h Nat.one_pos) (Nat.le_of_lt_succ s.sp.isLt)
    some (s.stk[s.sp.val - 1], { s with sp := ⟨s.sp.val - 1, Nat.lt_succ_of_lt hlt⟩ })
  else none

/-! ### Inputs (10_state R34, R36) -/

/-- RandByte(): the byte the next draw delivers, the host's if it has fixed one, else a free value. -/
def State.randByte (s : State) : Byte := s.env.rands.headD (Config.freeRand s.env.draws)

/-- The draw is used up. -/
def State.afterDraw (s : State) : State :=
  s.setEnv { s.env with rands := s.env.rands.tail, draws := s.env.draws + 1 }

/-- KeyDown(k): the level of key `k` at the next sample, the host's if it has fixed one, else a free value. -/
def State.keyDown (s : State) (k : Nat) : Bool :=
  (s.env.keySamples.headD (Config.freeKeys s.env.samples)).getLsbD k

/-- The sample is used up. -/
def State.afterSample (s : State) : State :=
  s.setEnv { s.env with keySamples := s.env.keySamples.tail, samples := s.env.samples + 1 }

/-- A Step has been made since Reset (70_reset R242). -/
def State.markStarted (s : State) : State := s.setEnv { s.env with started := true }

/-- The host events that still wait. -/
def State.setCalls (s : State) (cs : List HostCall) : State := s.setEnv { s.env with calls := cs }

/-! ### Taking a fatal condition (60_exceptions R206, R207) -/

/-- `raise k`: status <- Fatal(k, PC, op), `op` the fetched word, or none where the fetch itself raised.
Nothing else changes; PC still holds the address of the instruction. There is no return from it: only the
Reset event leaves the Fatal status (60_exceptions R209). -/
def raise (k : FatalKind) (op : Option Word) (s : State) : StepResult :=
  .next (s.setStatus (.fatal k s.pc op))

/-- `raise k` by an instruction: the word fetched is the instruction's own (log entry 32). -/
def raiseBy (k : FatalKind) (ins : Instr) (s : State) : StepResult := raise k (some (encode ins)) s

end Sys2Proof.Machine
end

