-- ==== Sys2Proof/Machine/ArithLogic.lean ====
section
/-! DEFINITION. The meanings of the arithmetic and logic instructions (41_arith_logic). Every one reads its
sources first, writes V[X], then VF where it has a flag, and advances PC last (R100; log entry 7). -/

namespace Sys2Proof.Machine

/-- 6XNN (R101). -/
def execLdImm (x : RegIx) (nn : Byte) (s : State) : StepResult :=
  .next (s.setReg x nn).advance

/-- 7XNN: the sum wraps, VF is not written (R102). -/
def execAddImm (x : RegIx) (nn : Byte) (s : State) : StepResult :=
  .next (s.setReg x (sum8 (s.reg x) nn)).advance

/-- 8XY0 (R103). -/
def execLdReg (x y : RegIx) (s : State) : StepResult :=
  .next (s.setReg x (s.reg y)).advance

/-- 8XY1, no flag (R104). -/
def execOr (x y : RegIx) (s : State) : StepResult :=
  .next (s.setReg x (s.reg x ||| s.reg y)).advance

/-- 8XY2, no flag (R105). -/
def execAnd (x y : RegIx) (s : State) : StepResult :=
  .next (s.setReg x (s.reg x &&& s.reg y)).advance

/-- 8XY3, no flag (R106). -/
def execXor (x y : RegIx) (s : State) : StepResult :=
  .next (s.setReg x (s.reg x ^^^ s.reg y)).advance

/-- 8XY4: VF is the carry out (R107). -/
def execAddReg (x y : RegIx) (s : State) : StepResult :=
  .next (s.setRegFlag x (sum8 (s.reg x) (s.reg y)) (carryOut (s.reg x) (s.reg y))).advance

/-- 8XY5: V[X] - V[Y] floored at 0, VF is 1 for no borrow (R108; operand order, log entry 5). -/
def execSub (x y : RegIx) (s : State) : StepResult :=
  .next (s.setRegFlag x (floorSub (s.reg x) (s.reg y)) (noBorrow (s.reg x) (s.reg y))).advance

/-- 8XY6: in place on V[X]; Y is ignored (R109; log entry 6). -/
def execShr (x _y : RegIx) (s : State) : StepResult :=
  .next (s.setRegFlag x (halve (s.reg x)) (shiftedOutRight (s.reg x))).advance

/-- 8XY7: V[Y] - V[X] floored at 0, VF is 1 for no borrow (R110; operand order, log entry 5). -/
def execSubn (x y : RegIx) (s : State) : StepResult :=
  .next (s.setRegFlag x (floorSub (s.reg y) (s.reg x)) (noBorrow (s.reg y) (s.reg x))).advance

/-- 8XYE: in place on V[X]; Y is ignored (R111; log entry 6). -/
def execShl (x _y : RegIx) (s : State) : StepResult :=
  .next (s.setRegFlag x (double (s.reg x)) (shiftedOutLeft (s.reg x))).advance

/-- CXNN: the drawn byte ANDed with the mask (R112; log entry 18). -/
def execRnd (x : RegIx) (nn : Byte) (s : State) : StepResult :=
  .next (s.afterDraw.setReg x (s.randByte &&& nn)).advance

end Sys2Proof.Machine
end

