-- ==== Sys2Proof/Machine/ControlFlow.lean ====
section
/-! DEFINITION. The meanings of the control-flow instructions (42_control_flow). None is followed by an
auto-advance, none writes a register, and a target outside memory is met by the next fetch (R120). -/

namespace Sys2Proof.Machine

/-- 0NNN other than the two literals: the legacy call raises DecodeError, always (R129). -/
def execSys (nnn : Addr12) (s : State) : StepResult := raiseBy .decodeError (.sys nnn) s

/-- 00EE: PC takes the popped entry itself, StackUnderflow on an empty stack (R124; log entry 8). -/
def execRet (s : State) : StepResult :=
  match s.pop? with
  | none => raiseBy .stackUnderflow .ret s
  | some (w, t) => .next (t.setPc w)

/-- 1NNN (R121). -/
def execJp (nnn : Addr12) (s : State) : StepResult := .next (s.setPc (zextNNN nnn))

/-- 2NNN: the address of the next instruction is pushed, StackOverflow on a full stack (R123; log entry 8). -/
def execCall (nnn : Addr12) (s : State) : StepResult :=
  match s.push? (s.pc + BitVec.ofNat 16 Config.instrBytes) with
  | none => raiseBy .stackOverflow (.call nnn) s
  | some t => .next (t.setPc (zextNNN nnn))

/-- 3XNN (R125). -/
def execSeImm (x : RegIx) (nn : Byte) (s : State) : StepResult := .next (s.skipIf (s.reg x == nn))

/-- 4XNN (R126). -/
def execSneImm (x : RegIx) (nn : Byte) (s : State) : StepResult := .next (s.skipIf (s.reg x != nn))

/-- 5XY0 (R127). -/
def execSeReg (x y : RegIx) (s : State) : StepResult := .next (s.skipIf (s.reg x == s.reg y))

/-- 9XY0 (R128). -/
def execSneReg (x y : RegIx) (s : State) : StepResult := .next (s.skipIf (s.reg x != s.reg y))

/-- BNNN: the register is always V[0] (R122). -/
def execJpV0 (nnn : Addr12) (s : State) : StepResult := .next (s.setPc (offsetTarget nnn (s.reg 0)))

end Sys2Proof.Machine
end

