-- ==== Sys2Proof/Machine/Display.lean ====
section
/-! DEFINITION. The meanings of the two display instructions (43_display), the only ones that change the
framebuffer. Both set dirty (10_state R30; log entry 15). -/

namespace Sys2Proof.Machine

/-- 00E0 (R141). -/
def execCls (s : State) : StepResult := .next (s.setFb Framebuffer.blank).advance

/-- DXYN (R142): the origin is read before VF is written, all N bytes must lie in memory, and VF is left as
the collision flag. The two writes of VF the rule lists (0 first, the flag at the end) have the net effect of
the second, because nothing reads VF between them (log entries 7, 14). -/
def execDrw (x y : RegIx) (n : Fin 16) (s : State) : StepResult :=
  if touchesOutside s.i.toNat n.val then raiseBy .outOfBounds (.drw x y n) s
  else
    let drawn := drawSprite s.fb (s.reg x).toNat (s.reg y).toNat (s.mem.readBytes s.i.toNat n.val)
    .next ((s.setFb drawn.1).setReg Config.flagReg (flagByte drawn.2)).advance

end Sys2Proof.Machine
end

