-- ==== Sys2Proof/Machine/Input.lean ====
section
/-! DEFINITION. The meanings of the key instructions (44_input). The second half of FX0A is the KeyEvent of
Machine/HostEvents.lean. -/

namespace Sys2Proof.Machine

/-- EX9E: skip if key V[X] is down; a number above 15 names no key and raises OutOfBounds (R151; log entry 16). -/
def execSkp (x : RegIx) (s : State) : StepResult :=
  if noSuchKey (s.reg x) then raiseBy .outOfBounds (.skp x) s
  else .next (s.afterSample.skipIf (s.keyDown (s.reg x).toNat))

/-- EXA1: skip if key V[X] is not down; a number above 15 raises OutOfBounds (R152; log entry 16). -/
def execSknp (x : RegIx) (s : State) : StepResult :=
  if noSuchKey (s.reg x) then raiseBy .outOfBounds (.sknp x) s
  else .next (s.afterSample.skipIf (!s.keyDown (s.reg x).toNat))

/-- FX0A, its Step half: the wait begins; PC and V[X] are not changed (R153; log entry 17). -/
def execLdVxK (x : RegIx) (s : State) : StepResult := .next (s.setStatus (.awaitingKey x))

end Sys2Proof.Machine
end

