-- ==== Sys2Proof/Machine/MemoryBlock.lean ====
section
/-! DEFINITION. The meanings of the address-register and memory-block instructions (46_memory_block). Loads
and stores test their highest address before the first access (R177) and never change I (log entry 22). -/

namespace Sys2Proof.Machine

/-- ANNN (R170; log entry 3). -/
def execLdI (nnn : Addr12) (s : State) : StepResult := .next (s.setI (zextNNN nnn)).advance

/-- FX1E: modulo 65536, VF is not written (R171; log entry 22). -/
def execAddI (x : RegIx) (s : State) : StepResult := .next (s.setI (addToI s.i (s.reg x))).advance

/-- FX29 (R172; log entry 23). -/
def execLdFVx (x : RegIx) (s : State) : StepResult := .next (s.setI (glyphAddress (s.reg x))).advance

/-- FX33: three digits at I, I + 1, I + 2 (R173). -/
def execLdBVx (x : RegIx) (s : State) : StepResult :=
  if touchesOutside s.i.toNat 3 then raiseBy .outOfBounds (.ldBVx x) s
  else .next (s.setMem (s.mem.writeBytes s.i.toNat (bcdDigits (s.reg x)))).advance

/-- FX55: V[0] to V[X] at I to I + X (R174). -/
def execLdMemVx (x : RegIx) (s : State) : StepResult :=
  if touchesOutside s.i.toNat (x.val + 1) then raiseBy .outOfBounds (.ldMemVx x) s
  else .next (s.setMem (s.mem.writeBytes s.i.toNat (s.regsUpTo x))).advance

/-- FX65: V[0] to V[X] from I to I + X (R175). -/
def execLdVxMem (x : RegIx) (s : State) : StepResult :=
  if touchesOutside s.i.toNat (x.val + 1) then raiseBy .outOfBounds (.ldVxMem x) s
  else .next (s.setRegs (s.loadedRegs x s.i.toNat)).advance

end Sys2Proof.Machine
end

