-- ==== Sys2Proof/Machine/Timers.lean ====
section
/-! DEFINITION. The meanings of the timer instructions (45_timers). The countdown is the TimerTick event of
Machine/HostEvents.lean, never an effect of an instruction (R160). -/

namespace Sys2Proof.Machine

/-- FX07 (R161). -/
def execLdVxDt (x : RegIx) (s : State) : StepResult := .next (s.setReg x s.dt).advance

/-- FX15 (R162). -/
def execLdDtVx (x : RegIx) (s : State) : StepResult := .next (s.setDt (s.reg x)).advance

/-- FX18 (R163). -/
def execLdStVx (x : RegIx) (s : State) : StepResult := .next (s.setSt (s.reg x)).advance

end Sys2Proof.Machine
end

