-- ==== Sys2Proof/Machine/Sequencer.lean ====
section
/-! DEFINITION. The Step event: fetch, decode, execute, and what a Step does in each status (40_step_cycle). -/

namespace Sys2Proof.Machine

/-- Both bytes of the word at PC lie in memory (R91). -/
def canFetch (pc : Word) : Bool := decide (pc.toNat + 1 ≤ Config.maxAddr)

/-- The fetch: the big-endian word at PC, or none where it would raise OutOfBounds (R91). -/
def fetch (s : State) : Option Word := if canFetch s.pc then some (s.mem.readWord s.pc.toNat) else none

/-- One fetch, decode, execute; the first check that fails is the one reported (60_exceptions R208). -/
def runInstruction (s : State) : StepResult :=
  match fetch s with
  | none => raise .outOfBounds none s
  | some op =>
    match decode op with
    | .error _ => raise .decodeError (some op) s
    | .ok ins => exec ins s

/-- The Step event (R90). In the Fatal and AwaitingKey statuses nothing is fetched and nothing changes
(R94, R95; log entry 13). -/
def stepEvent (s : State) : StepResult :=
  match s.status with
  | .fatal _ _ _ => .next s
  | .awaitingKey _ => .next s
  | .running => runInstruction s.markStarted

end Sys2Proof.Machine
end

