-- ==== Sys2Proof/Machine/HostEvents.lean ====
section
/-! DEFINITION. The events the host applies to the core, each atomic (10_state R33, 60_exceptions R226). -/

namespace Sys2Proof.Machine

/-- Reset: every piece of the core's state takes its reset value, in any status (70_reset R240). What the host
still has to say is the host's and stays; a Load is legal again. -/
def resetEvent (s : State) : State := State.reset.setEnv { s.env with started := false }

/-- What a Load returns to the host (70_reset R242). -/
inductive LoadReport where
  | ok
  | loadError
deriving DecidableEq, Repr

/-- The report of a Load: LoadError for more than ROM_MAX bytes (70_reset R242, 60_exceptions R205). Like the
report of a Step it is an output, never state. -/
def loadReport (bytes : List Byte) : LoadReport := if Config.romMax < bytes.length then .loadError else .ok

/-- Load: the bytes go to PROG_BASE on, and with the report LoadError nothing changes; a Load after the first
Step has no meaning (70_reset R242; log entry 24). -/
def loadEvent (bytes : List Byte) (s : State) : StepResult :=
  if s.env.started then .refused .loadAfterStep
  else
    match loadReport bytes with
    | .ok => .next (s.setMem (s.mem.writeBytes Config.progBase bytes))
    | .loadError => .next s

/-- One timer count: down by one, never below 0 (60_exceptions R213). -/
def countDown (b : Byte) : Byte := if 0 < b.toNat then b - 1 else 0

/-- TimerTick: both timers count, in every status (60_exceptions R213, R214; log entry 21). -/
def timerTickEvent (s : State) : State := (s.setDt (countDown s.dt)).setSt (countDown s.st)

/-- KeyEvent(k): ends a wait where k is 0 to 15, and changes nothing in every other case (44_input R154, R155). -/
def keyEvent (k : Nat) (s : State) : State :=
  match s.status with
  | .awaitingKey x =>
    if k < Config.numKeys then ((s.setReg x (BitVec.ofNat 8 k)).advance).setStatus .running else s
  | .running => s
  | .fatal _ _ _ => s

/-- ClearDirty: dirty <- 0 and nothing else, in every status (10_state R38). -/
def clearDirtyEvent (s : State) : State := s.setDirty false

/-- One event of the host. -/
def hostCall (c : HostCall) (s : State) : StepResult :=
  match c with
  | .reset => .next (resetEvent s)
  | .load bytes => loadEvent bytes s
  | .step => stepEvent s
  | .timerTick => .next (timerTickEvent s)
  | .keyEvent k => .next (keyEvent k s)
  | .clearDirty => .next (clearDirtyEvent s)

/-- The next event: the oldest host call that waits, or a Step where none waits (log entry 25). -/
def nextEvent (s : State) : StepResult :=
  match s.env.calls with
  | [] => stepEvent s
  | c :: rest => hostCall c (s.setCalls rest)

/-- Where the next Step would fetch, if PC is inside memory; else PROG_BASE (log entry 26). -/
def fetchAddress (s : State) : Word := if canFetch s.pc then s.pc else BitVec.ofNat 16 Config.progBase

end Sys2Proof.Machine
end

