-- ==== Sys2Proof/Machine/Step.lean ====
section
/-! DEFINITION. One step of the machine, and how the host's checks place an instruction where it is fetched. -/

namespace Sys2Proof.Machine

/-- One step: one event (log entry 25). -/
def step (s : State) : Host.Outcome State Fault Refusal := nextEvent s

/-- The state with the table's word stored where the next fetch reads it, ready to run it: no host call waits,
the status is Running, and PC is inside memory. At reset nothing but the two bytes changes (log entry 26). -/
def State.withFetchWord (s : State) (nbits w : Nat) : State :=
  (((s.setPc (fetchAddress s)).setStatus .running).setCalls []).setMem
    (s.mem.writeBytes (fetchAddress s).toNat (bytesOfWord (tableWord nbits w)))

end Sys2Proof.Machine
end

