-- ==== Sys2Proof/Machine/Outputs.lean ====
section
/-! DEFINITION. What the core gives back to the host: functions of the state, never state (10_state R37 to R40). -/

namespace Sys2Proof.Machine

/-- Output `tone`: the sound timer is greater than 0 (10_state R39, 60_exceptions R216). -/
def State.tone (s : State) : Bool := decide (0 < s.st.toNat)

/-- Output `fb`: the pixel at column x, row y (10_state R37). -/
def State.fbOut (s : State) (x y : Nat) : Bool := Framebuffer.pixel s.fb x y

/-- What a Step reports to the host (40_step_cycle R96). -/
inductive StepReport where
  | fatalError (kind : FatalKind) (pc : Word) (opcode : Option Word)
  | awaitingKey
  | frameDirty
  | advanced
deriving DecidableEq, Repr

/-- The instruction a Step from this state executes is 00E0 or DXYN. -/
def stepDraws (s : State) : Bool :=
  match s.status, (fetch s).map decode with
  | .running, some (.ok .cls) => true
  | .running, some (.ok (.drw _ _ _)) => true
  | _, _ => false

/-- The outcome of one Step made in `before` that ended in `after`, in the order of precedence of R96
(log entry 29). -/
def stepReport (before after : State) : StepReport :=
  match after.status with
  | .fatal k p o => .fatalError k p o
  | .awaitingKey _ => .awaitingKey
  | .running => if stepDraws before then .frameDirty else .advanced

end Sys2Proof.Machine
end

