-- ==== Sys2Proof/Safety.lean ====
section
/-! DEFINITION. What counts as a good state and a safe run, in the terms the claims use. -/

namespace Sys2Proof.Machine

/-- No fatal condition has been taken (60_exceptions R209: a Fatal state is never a final one). -/
def State.notFatal (s : State) : Prop := ∀ k p o, s.status ≠ .fatal k p o

/-- What is true between any two events of the machine. -/
structure State.Inv (s : State) : Prop where
  /-- Memory keeps its canonical form (log entry 28). -/
  memWf : s.mem.wf
  /-- "NNN = 0xFFF, V[0] = 0xFF gives PC = 0x10FE, the largest value PC can ever hold" (42_control_flow R122). -/
  pcBound : s.pc.toNat ≤ 0x10FE
  /-- An entry is an address of a word that was fetched plus 2, or the reset value (10_state R25). -/
  stkBound : ∀ (k : Nat) (h : k < 16), (s.stk[k]'h).toNat ≤ 0x1000
  /-- While the core waits, memory at PC still holds the FX0A that began the wait (10_state R31). -/
  waiting : ∀ x, s.status = .awaitingKey x → (fetch s).map decode = some (.ok (.ldVxK x))
  /-- The Fatal record: the recorded pc is PC, which did not move, and the recorded word is the one fetched
  there, or none where no word can be fetched (60_exceptions R207). -/
  record : ∀ k p o, s.status = .fatal k p o → p = s.pc ∧ o = fetch s
  /-- Only the fetch records no word, and the fetch raises only OutOfBounds (60_exceptions R207). -/
  recordKind : ∀ k p, s.status = .fatal k p none → k = .outOfBounds
  /-- A core that waits or has stopped has made a Step, so no Load is legal any more (70_reset R242). -/
  stopped : s.status ≠ .running → s.env.started = true

/-- The reset state with whatever the host will do and answer: the start of every run (70_reset R243). -/
def State.boot (calls : List HostCall) (rands : List Byte) (keys : List Word) : State :=
  State.reset.setEnv { Env.reset with calls := calls, rands := rands, keySamples := keys }

/-- The states of every run: any host, from reset. -/
inductive Reachable : State → Prop where
  | boot (calls : List HostCall) (rands : List Byte) (keys : List Word) : Reachable (State.boot calls rands keys)
  | step {s t : State} : Reachable s → step s = .next t → Reachable t

/-! ### The sprite as a bitmap -/

/-- The sprite pixel of a row byte at column `x`, its first column being `x0`: bit 7 is the leftmost of eight
(43_display R140). -/
def rowBit (b : Byte) (x0 x : Nat) : Bool := decide (x0 ≤ x ∧ x < x0 + 8) && b.getLsbD (7 - (x - x0))

/-- The sprite with origin (x0, y0), one byte a row, has a set bit at (x, y); coordinates are over the integers. -/
def spriteBit (rows : List Byte) (x0 y0 x y : Nat) : Bool :=
  decide (y0 ≤ y ∧ y < y0 + rows.length) && rowBit (rows.getD (y - y0) 0) x0 x

end Sys2Proof.Machine
end

