-- ==== Sys2Proof/Certificates/Slice0/Obligations.lean ====
section
/-! DEFINITION. The statements for the provers. Each docstring names the rule of the spec it comes from; where a
clause rests on a decision or an inference that the spec marks as its own, or on the model's choice, it says so.
The line of an instruction's rule that says "Encoding: map row n" points to the map, which
Obligations.DecodeFollowsOpcodeMap states; no other statement repeats it. -/

namespace Sys2Proof.Claims

open Sys2Proof.Machine

/-! ### The words the statements use -/

/-- The instruction changed nothing but the registers listed and PC. -/
def OnlyRegs (ds : List RegIx) (s t : State) : Prop :=
  (∀ z, z ∉ ds → t.reg z = s.reg z) ∧ t = { s with v := t.v, pc := t.pc }

/-- Hex digit `k` of a word, digit 0 the lowest (00_scope R6). -/
def digit (op : Word) (k : Nat) : Fin 16 := ⟨op.toNat / 16 ^ k % 16, Nat.mod_lt _ (by decide)⟩

/-- NN of a word: its low byte. -/
def lowByte (op : Word) : Byte := BitVec.ofNat 8 op.toNat

/-- NNN of a word: its low twelve bits. -/
def low12 (op : Word) : Addr12 := BitVec.ofNat 12 op.toNat

/-- All `len` bytes from I on lie in memory (20_memory R59). -/
def InMemory (s : State) (len : Nat) : Prop := len = 0 ∨ s.i.toNat + len - 1 ≤ 0xFFF

/-- The sprite of DXYN has a set bit that belongs at column `px`, row `py`: row r is the byte at I + r, bit
7 - c of it is column c, and the origin is (V[X], V[Y]) over the integers (43_display R140, R142). -/
def SpriteHas (s : State) (x y : RegIx) (n : Fin 16) (px py : Nat) : Prop :=
  ∃ r c, r < n.val ∧ c < 8 ∧ (s.mem.read (s.i.toNat + r)).getLsbD (7 - c) = true ∧
    px = (s.reg x).toNat + c ∧ py = (s.reg y).toNat + r

/-- The pixel is on the grid (10_state R29). -/
def OnGrid (px py : Nat) : Prop := px < 64 ∧ py < 32

/-- The draw erases a lit pixel (43_display R142). -/
def Collides (s : State) (x y : RegIx) (n : Fin 16) : Prop :=
  ∃ px py, OnGrid px py ∧ SpriteHas s x y n px py ∧ s.fbOut px py = true

/-- The registers an instruction may write: its named destination, VF where the table of 10_state R21 gives the
instruction a flag, and V[0] to V[X] for FX65. -/
def MayWrite : Instr → RegIx → Prop
  | .ldImm x _, z | .addImm x _, z | .ldReg x _, z | .or x _, z | .and x _, z | .xor x _, z
  | .rnd x _, z | .ldVxDt x, z => z = x
  | .addReg x _, z | .sub x _, z | .shr x _, z | .subn x _, z | .shl x _, z => z = x ∨ z = 15
  | .drw _ _ _, z => z = 15
  | .ldVxMem x, z => z ≤ x
  | .sys _, _ | .cls, _ | .ret, _ | .jp _, _ | .call _, _ | .seImm _ _, _ | .sneImm _ _, _ | .seReg _ _, _
  | .sneReg _ _, _ | .ldI _, _ | .jpV0 _, _ | .skp _, _ | .sknp _, _ | .ldVxK _, _ | .ldDtVx _, _ | .ldStVx _, _
  | .addI _, _ | .ldFVx _, _ | .ldBVx _, _ | .ldMemVx _, _ => False

/-- The address an instruction stores to, counted from I with the expression its meaning uses: three bytes for
FX33, X + 1 bytes for FX55, none for every other instruction (20_memory R58). -/
def StoresTo (s : State) : Instr → Nat → Prop
  | .ldBVx _, a => s.i.toNat ≤ a ∧ a < s.i.toNat + 3
  | .ldMemVx x, a => s.i.toNat ≤ a ∧ a < s.i.toNat + (x.val + 1)
  | _, _ => False

/-- Both timers `n` ticks later (60_exceptions R213). -/
def afterTicks (n : Nat) (s : State) : State :=
  { s with dt := BitVec.ofNat 8 (s.dt.toNat - n), st := BitVec.ofNat 8 (s.st.toNat - n) }

end Sys2Proof.Claims

open Sys2Proof Sys2Proof.Machine Sys2Proof.Claims

/-! ### Encoding -/

/-- Decoding the word of a well-formed instruction gives the instruction back, with every operand at every value
(30_encoding R70 to R78; the bit patterns are the spec's general knowledge, log entries 2 to 4). -/
def Obligations.DecodeOfEncode : Prop :=
  ∀ i : Instr, i.wellFormed = true → decode (encode i) = .ok i ∧ decodeBytes (encodeBytes i) = .ok (i, [])

/-- Every word that decodes is the word of the instruction it decodes to, and that instruction is well formed, so
no word selects two operations and no bit is dropped (30_encoding R73; log entries 2 to 4). -/
def Obligations.EncodeOfDecode : Prop :=
  ∀ (op : Word) (i : Instr), decode op = .ok i → encode i = op ∧ i.wellFormed = true

/-- The 35 rows of the opcode map of 30_encoding section 3, mask and match as printed there, with the fields of
R71 (the bit patterns are the spec's general knowledge, log entries 2 to 4). -/
def Obligations.DecodeFollowsOpcodeMap : Prop :=
  ∀ op : Word,
    (op &&& 0xF000#16 = 0x0000#16 → op ≠ 0x00E0#16 → op ≠ 0x00EE#16 → decode op = .ok (.sys (low12 op))) ∧
    (op = 0x00E0#16 → decode op = .ok .cls) ∧
    (op = 0x00EE#16 → decode op = .ok .ret) ∧
    (op &&& 0xF000#16 = 0x1000#16 → decode op = .ok (.jp (low12 op))) ∧
    (op &&& 0xF000#16 = 0x2000#16 → decode op = .ok (.call (low12 op))) ∧
    (op &&& 0xF000#16 = 0x3000#16 → decode op = .ok (.seImm (digit op 2) (lowByte op))) ∧
    (op &&& 0xF000#16 = 0x4000#16 → decode op = .ok (.sneImm (digit op 2) (lowByte op))) ∧
    (op &&& 0xF00F#16 = 0x5000#16 → decode op = .ok (.seReg (digit op 2) (digit op 1))) ∧
    (op &&& 0xF000#16 = 0x6000#16 → decode op = .ok (.ldImm (digit op 2) (lowByte op))) ∧
    (op &&& 0xF000#16 = 0x7000#16 → decode op = .ok (.addImm (digit op 2) (lowByte op))) ∧
    (op &&& 0xF00F#16 = 0x8000#16 → decode op = .ok (.ldReg (digit op 2) (digit op 1))) ∧
    (op &&& 0xF00F#16 = 0x8001#16 → decode op = .ok (.or (digit op 2) (digit op 1))) ∧
    (op &&& 0xF00F#16 = 0x8002#16 → decode op = .ok (.and (digit op 2) (digit op 1))) ∧
    (op &&& 0xF00F#16 = 0x8003#16 → decode op = .ok (.xor (digit op 2) (digit op 1))) ∧
    (op &&& 0xF00F#16 = 0x8004#16 → decode op = .ok (.addReg (digit op 2) (digit op 1))) ∧
    (op &&& 0xF00F#16 = 0x8005#16 → decode op = .ok (.sub (digit op 2) (digit op 1))) ∧
    (op &&& 0xF00F#16 = 0x8006#16 → decode op = .ok (.shr (digit op 2) (digit op 1))) ∧
    (op &&& 0xF00F#16 = 0x8007#16 → decode op = .ok (.subn (digit op 2) (digit op 1))) ∧
    (op &&& 0xF00F#16 = 0x800E#16 → decode op = .ok (.shl (digit op 2) (digit op 1))) ∧
    (op &&& 0xF00F#16 = 0x9000#16 → decode op = .ok (.sneReg (digit op 2) (digit op 1))) ∧
    (op &&& 0xF000#16 = 0xA000#16 → decode op = .ok (.ldI (low12 op))) ∧
    (op &&& 0xF000#16 = 0xB000#16 → decode op = .ok (.jpV0 (low12 op))) ∧
    (op &&& 0xF000#16 = 0xC000#16 → decode op = .ok (.rnd (digit op 2) (lowByte op))) ∧
    (op &&& 0xF000#16 = 0xD000#16 → decode op = .ok (.drw (digit op 2) (digit op 1) (digit op 0))) ∧
    (op &&& 0xF0FF#16 = 0xE09E#16 → decode op = .ok (.skp (digit op 2))) ∧
    (op &&& 0xF0FF#16 = 0xE0A1#16 → decode op = .ok (.sknp (digit op 2))) ∧
    (op &&& 0xF0FF#16 = 0xF007#16 → decode op = .ok (.ldVxDt (digit op 2))) ∧
    (op &&& 0xF0FF#16 = 0xF00A#16 → decode op = .ok (.ldVxK (digit op 2))) ∧
    (op &&& 0xF0FF#16 = 0xF015#16 → decode op = .ok (.ldDtVx (digit op 2))) ∧
    (op &&& 0xF0FF#16 = 0xF018#16 → decode op = .ok (.ldStVx (digit op 2))) ∧
    (op &&& 0xF0FF#16 = 0xF01E#16 → decode op = .ok (.addI (digit op 2))) ∧
    (op &&& 0xF0FF#16 = 0xF029#16 → decode op = .ok (.ldFVx (digit op 2))) ∧
    (op &&& 0xF0FF#16 = 0xF033#16 → decode op = .ok (.ldBVx (digit op 2))) ∧
    (op &&& 0xF0FF#16 = 0xF055#16 → decode op = .ok (.ldMemVx (digit op 2))) ∧
    (op &&& 0xF0FF#16 = 0xF065#16 → decode op = .ok (.ldVxMem (digit op 2)))

/-- The words that raise DecodeError, row for row of the table of 30_encoding R79 (rows 2, 4 and 5 rest on
decision D2; log entry 4). -/
def Obligations.DecodeErrorWordsExactly : Prop :=
  ∀ op : Word,
    ((∃ r, decode op = .error r) ∨ ∃ nnn, decode op = .ok (.sys nnn)) ↔
      (digit op 3 = 0x0 ∧ op ≠ 0x00E0#16 ∧ op ≠ 0x00EE#16) ∨
      (digit op 3 = 0x5 ∧ digit op 0 ≠ 0) ∨
      (digit op 3 = 0x8 ∧ digit op 0 ∈ [0x8, 0x9, 0xA, 0xB, 0xC, 0xD, 0xF]) ∨
      (digit op 3 = 0x9 ∧ digit op 0 ≠ 0) ∨
      (digit op 3 = 0xE ∧ lowByte op ∉ [0x9E#8, 0xA1#8]) ∨
      (digit op 3 = 0xF ∧ lowByte op ∉ [0x07#8, 0x0A#8, 0x15#8, 0x18#8, 0x1E#8, 0x29#8, 0x33#8, 0x55#8, 0x65#8])

/-- Ten words of 95_test_vectors (S1, S6, TA1, TD1, TD2, TD4, TD8, TD23, TK3, TV3) and what they are (30_encoding
section 3; that 0x5121 is refused is decision D2; log entries 2 to 4). -/
def Obligations.SampleWordsDecode : Prop :=
  decode 0x00E0#16 = .ok .cls ∧ decode 0x00EE#16 = .ok .ret ∧ decode 0x00E1#16 = .ok (.sys 0x0E1) ∧
  decode 0x6A2B#16 = .ok (.ldImm 0xA 0x2B) ∧ decode 0x8AB4#16 = .ok (.addReg 0xA 0xB) ∧
  decode 0xD125#16 = .ok (.drw 1 2 5) ∧ decode 0xE5A1#16 = .ok (.sknp 5) ∧ decode 0xF355#16 = .ok (.ldMemVx 3) ∧
  decode 0x5121#16 = .error .family5 ∧ decode 0xF175#16 = .error .familyF

/-! ### The step -/

/-- With no host call waiting and the status Running, a step is the execution of the instruction that the two
bytes at PC and PC + 1 decode to, the first of them the high half (20_memory R56, 40_step R90, R92). The step
also notes that a Step has been made, which is the model's own field (log entry 24). -/
def Obligations.StepRunsDecodedInstruction : Prop :=
  ∀ (s : State) (i : Instr), s.env.calls = [] → s.status = .running → s.pc.toNat + 1 ≤ 0xFFF →
    decodeBytes [s.mem.read s.pc.toNat, s.mem.read (s.pc.toNat + 1)] = .ok (i, []) →
    step s = exec i { s with env := { s.env with started := true } }

/-- Fetch needs both bytes inside memory: with PC at 0xFFF or above the step takes OutOfBounds and records PC and
no word (40_step R91; the time of the check and the missing word are decisions D9 and D32; log entries 11, 13). -/
def Obligations.FetchOutsideMemoryIsFatal : Prop :=
  ∀ s : State, s.env.calls = [] → s.status = .running →
    (0xFFF ≤ s.pc.toNat →
      step s = .next { s with status := .fatal .outOfBounds s.pc none, env := { s.env with started := true } }) ∧
    (s.pc.toNat < 0xFFF → ∃ op, fetch s = some op ∧
      op = s.mem.read s.pc.toNat ++ s.mem.read (s.pc.toNat + 1))

/-- A fetched word that no row of the map selects is fatal with the word and PC recorded, not a no-op
(60_exceptions R201, R206; precision is decision D11; log entry 13). -/
def Obligations.UndecodableWordIsFatal : Prop :=
  ∀ (s : State) (op : Word) (r : Reject), s.env.calls = [] → s.status = .running → fetch s = some op →
    decode op = .error r →
    step s = .next { s with status := .fatal .decodeError s.pc (some op), env := { s.env with started := true } }

/-- A Step while the core waits for a key or has stopped changes nothing (40_step R94, R95, decision D30;
log entry 13). -/
def Obligations.WaitingAndStoppedStepsChangeNothing : Prop :=
  ∀ s : State, s.env.calls = [] → s.status ≠ .running → step s = .next s

/-- Where host calls wait, a step is the oldest of them, and the others go on waiting (10_state R33; that one
step is one event is the model's choice, log entry 25). -/
def Obligations.StepTakesOldestHostCall : Prop :=
  ∀ (s : State) (c : HostCall) (rest : List HostCall), s.env.calls = c :: rest →
    step s = hostCall c { s with env := { s.env with calls := rest } } ∧
    (c = .step → s.status = .running → step s = runInstruction { s with env := { s.env with calls := rest, started := true } })

/-- What a Step reports: a stop before a wait before a drawn picture (40_step R96, decision D31; log entry 29). -/
def Obligations.StepReportPrecedence : Prop :=
  ∀ (s t : State), s.status = .running → stepEvent s = .next t →
    (∀ k p o, t.status = .fatal k p o → stepReport s t = .fatalError k p o) ∧
    (∀ x, t.status = .awaitingKey x → stepReport s t = .awaitingKey) ∧
    (t.status = .running →
      (stepReport s t = .frameDirty ↔
        ∃ op, fetch s = some op ∧ (decode op = .ok .cls ∨ ∃ x y n, decode op = .ok (.drw x y n))))

/-! ### Host events -/

/-- Each timer is decremented by exactly 1 while greater than 0, never below 0, and the event changes nothing else
(60_exceptions R213); that it counts in every status is R214 by decision D21 (log entry 21). -/
def Obligations.TimerTickCountsBothDown : Prop :=
  ∀ s : State, ∃ t, hostCall .timerTick s = .next t ∧
    t.dt.toNat = (if 0 < s.dt.toNat then s.dt.toNat - 1 else 0) ∧
    t.st.toNat = (if 0 < s.st.toNat then s.st.toNat - 1 else 0) ∧
    t = { s with dt := t.dt, st := t.st }

/-- `n` ticks in a row, in any status, take both timers down by `n` or to 0, and further ticks leave them at 0
(95_test_vectors S8, 60_exceptions R213, R214, decision D21; that ticks wait in a list is log entry 25). -/
def Obligations.RunOfTicksReachesZero : Prop :=
  ∀ (n : Nat) (rest : List HostCall) (s : State), s.env.calls = List.replicate n .timerTick ++ rest →
    Host.Core.run Sys2Proof.core n s =
      .next (afterTicks n { s with env := { s.env with calls := rest } })

/-- 44_input R154: KeyEvent(k) with k in 0 to 15 while the core waits stores the number, advances and resumes. -/
def Obligations.KeyEventEndsTheWait : Prop :=
  ∀ (s : State) (x : RegIx) (k : Nat), s.status = .awaitingKey x → k < 16 →
    ∃ t, hostCall (.keyEvent k) s = .next t ∧ (t.reg x).toNat = k ∧ t.pc = s.pc + 2#16 ∧ t.status = .running ∧
      (∀ z, z ≠ x → t.reg z = s.reg z) ∧ t = { s with v := t.v, pc := t.pc, status := t.status }

/-- KeyEvent in every other case changes nothing (44_input R155, decision D18; log entry 17). -/
def Obligations.KeyEventOtherwiseIgnored : Prop :=
  ∀ (s : State) (k : Nat), (16 ≤ k ∨ ∀ x, s.status ≠ .awaitingKey x) → hostCall (.keyEvent k) s = .next s

/-- ClearDirty does dirty <- 0 and nothing else, in every status (10_state R38, decision D16; log entry 15). -/
def Obligations.ClearDirtyOnly : Prop :=
  ∀ s : State, hostCall .clearDirty s = .next { s with dirty := false }

/-- Reset gives every piece of state its reset value, whatever it held (70_reset R240, 10_state R41; FB, dirty and
status are decision D20, the FONT bytes general knowledge; log entries 1, 20). -/
def Obligations.ResetFromAnyState : Prop :=
  ∀ s : State, ∃ t, hostCall .reset s = .next t ∧
    (∀ z, t.reg z = 0) ∧ t.i = 0 ∧ t.pc = 0x200#16 ∧ t.sp = 0 ∧ (∀ (k : Nat) (h : k < 16), t.stk[k]'h = 0) ∧
    t.dt = 0 ∧ t.st = 0 ∧ t.tone = false ∧
    (∀ a, a < 80 → t.mem.read a = Config.font.getD a 0) ∧ (∀ a, 80 ≤ a → t.mem.read a = 0) ∧
    Config.font.length = 80 ∧ (∀ x y, t.fbOut x y = false) ∧ t.dirty = false ∧ t.status = .running ∧ t.mem.wf

/-- The first instruction fetched after Reset is the word at 0x200 and 0x201, whatever is loaded (70_reset R241);
that Reset applies to any state and leaves the status Running is decision D20 (log entry 20). -/
def Obligations.FirstFetchIsAtProgBase : Prop :=
  ∀ (s t : State) (bytes : List Byte), hostCall (.load bytes) (resetEvent s) = .next t →
    t.status = .running ∧ fetch t = some (t.mem.read 0x200 ++ t.mem.read 0x201)

/-- Load of at most 3584 bytes between Reset and the first Step returns ok, puts them at 0x200 on, and touches
nothing else (70_reset R242, decision D28; log entry 24). -/
def Obligations.LoadWritesTheRom : Prop :=
  ∀ (s : State) (bytes : List Byte), s.env.started = false → s.mem.wf → bytes.length ≤ 3584 →
    loadReport bytes = .ok ∧ ∃ t, hostCall (.load bytes) s = .next t ∧ t = { s with mem := t.mem } ∧ t.mem.wf ∧
      (∀ k, k < bytes.length → t.mem.read (0x200 + k) = bytes.getD k 0) ∧
      (∀ a, a < 0x200 ∨ 0x200 + bytes.length ≤ a → t.mem.read a = s.mem.read a)

/-- A Load of more than 3584 bytes returns LoadError and changes nothing, so the host may go on with a shorter one
or a Reset; a Load after the first Step has no meaning (70_reset R242, 60_exceptions R205, R226, decision D28; that
the second is a refusal of the step is log entry 24). -/
def Obligations.LoadThatIsRefused : Prop :=
  ∀ (s : State) (bytes : List Byte),
    (s.env.started = false → 3584 < bytes.length →
      loadReport bytes = .loadError ∧ hostCall (.load bytes) s = .next s) ∧
    (s.env.started = true → hostCall (.load bytes) s = .refused .loadAfterStep)

/-- Stepping with nothing loaded is a DecodeError at once (70_reset R245, the spec's own inference). -/
def Obligations.StepWithNothingLoadedIsFatal : Prop :=
  step State.reset = .next { State.reset with
    status := .fatal .decodeError 0x200#16 (some 0x0000#16), env := { Env.reset with started := true } }

/-! ### Arithmetic and logic -/

/-- 41_arith_logic R101, R102: load immediate and add immediate; the sum wraps and VF is written only as the
named destination. -/
def Obligations.LoadAndAddImmediate : Prop :=
  ∀ (x : RegIx) (nn : Byte) (s : State),
    (∃ t, exec (.ldImm x nn) s = .next t ∧ t.reg x = nn ∧ t.pc = s.pc + 2#16 ∧ OnlyRegs [x] s t) ∧
    (∃ t, exec (.addImm x nn) s = .next t ∧ (t.reg x).toNat = ((s.reg x).toNat + nn.toNat) % 256 ∧
      t.pc = s.pc + 2#16 ∧ OnlyRegs [x] s t)

/-- 41_arith_logic R103 to R106: copy, OR, AND and XOR, bit for bit, with no flag. -/
def Obligations.CopyAndLogic : Prop :=
  ∀ (x y : RegIx) (s : State),
    (∃ t, exec (.ldReg x y) s = .next t ∧ t.reg x = s.reg y ∧ t.pc = s.pc + 2#16 ∧ OnlyRegs [x] s t) ∧
    (∃ t, exec (.or x y) s = .next t ∧ t.pc = s.pc + 2#16 ∧ OnlyRegs [x] s t ∧
      ∀ b, b < 8 → (t.reg x).getLsbD b = ((s.reg x).getLsbD b || (s.reg y).getLsbD b)) ∧
    (∃ t, exec (.and x y) s = .next t ∧ t.pc = s.pc + 2#16 ∧ OnlyRegs [x] s t ∧
      ∀ b, b < 8 → (t.reg x).getLsbD b = ((s.reg x).getLsbD b && (s.reg y).getLsbD b)) ∧
    (∃ t, exec (.xor x y) s = .next t ∧ t.pc = s.pc + 2#16 ∧ OnlyRegs [x] s t ∧
      ∀ b, b < 8 → (t.reg x).getLsbD b = ((s.reg x).getLsbD b ^^ (s.reg y).getLsbD b))

/-- 8XY4: the sum modulo 256 and the carry out. With X = 15 the register holds the flag, by decision D5
(41_arith_logic R107, R100; log entry 7). -/
def Obligations.AddWithCarryOut : Prop :=
  ∀ (x y : RegIx) (s : State), ∃ t, exec (.addReg x y) s = .next t ∧
    (x ≠ 15 → (t.reg x).toNat = ((s.reg x).toNat + (s.reg y).toNat) % 256) ∧
    t.reg 15 = (if 255 < (s.reg x).toNat + (s.reg y).toNat then 1#8 else 0#8) ∧
    t.pc = s.pc + 2#16 ∧ OnlyRegs [x, 15] s t

/-- 8XY5 and 8XY7: the difference floored at 0, and VF = 0 exactly on a borrow. The operand orders are decision D3
and the order of the two writes decision D5 (41_arith_logic R108, R110, R100; log entries 5, 7). -/
def Obligations.SubtractFloorsAtZero : Prop :=
  ∀ (x y : RegIx) (s : State),
    (∃ t, exec (.sub x y) s = .next t ∧
      (x ≠ 15 → ((t.reg x).toNat : Int) = max 0 (((s.reg x).toNat : Int) - (s.reg y).toNat)) ∧
      t.reg 15 = (if (s.reg x).toNat < (s.reg y).toNat then 0#8 else 1#8) ∧
      t.pc = s.pc + 2#16 ∧ OnlyRegs [x, 15] s t) ∧
    (∃ t, exec (.subn x y) s = .next t ∧
      (x ≠ 15 → ((t.reg x).toNat : Int) = max 0 (((s.reg y).toNat : Int) - (s.reg x).toNat)) ∧
      t.reg 15 = (if (s.reg y).toNat < (s.reg x).toNat then 0#8 else 1#8) ∧
      t.pc = s.pc + 2#16 ∧ OnlyRegs [x, 15] s t)

/-- 8XY6 and 8XYE: halving and doubling in place, VF the bit that left, whatever Y is (41_arith_logic R109, R111;
in place by decision D4, the order of the two writes by decision D5; log entries 6, 7). -/
def Obligations.ShiftsInPlace : Prop :=
  ∀ (x y : RegIx) (s : State),
    (∃ t, exec (.shr x y) s = .next t ∧ (x ≠ 15 → (t.reg x).toNat = (s.reg x).toNat / 2) ∧
      (t.reg 15).toNat = (s.reg x).toNat % 2 ∧ t.pc = s.pc + 2#16 ∧ OnlyRegs [x, 15] s t) ∧
    (∃ t, exec (.shl x y) s = .next t ∧ (x ≠ 15 → (t.reg x).toNat = (s.reg x).toNat * 2 % 256) ∧
      (t.reg 15).toNat = (s.reg x).toNat / 128 ∧ t.pc = s.pc + 2#16 ∧ OnlyRegs [x, 15] s t)

/-- CXNN: for every byte the source may deliver, V[X] is that byte under the mask; where the host has fixed no
byte the value is free but still under the mask (41_arith_logic R112, decision D19; log entry 18). -/
def Obligations.RandomUnderMask : Prop :=
  ∀ (x : RegIx) (nn : Byte) (s : State), ∃ t, exec (.rnd x nn) s = .next t ∧
    (∀ r rest, s.env.rands = r :: rest → t.reg x = r &&& nn ∧ t.env.rands = rest) ∧
    t.reg x &&& ~~~nn = 0 ∧ (∀ z, z ≠ x → t.reg z = s.reg z) ∧ t.pc = s.pc + 2#16 ∧
    t = { s with v := t.v, pc := t.pc, env := { s.env with rands := t.env.rands, draws := t.env.draws } }

/-! ### Control flow -/

/-- 1NNN and BNNN: the target is NNN, or NNN + V[0] not masked to 12 bits; a target of 0xFFF or more completes the
jump and is met by the next fetch (42_control_flow R121, R122, 40_step R91; the time of the check is decision D9;
log entry 11). -/
def Obligations.JumpTargets : Prop :=
  ∀ (nnn : Addr12) (s : State),
    (∃ t, exec (.jp nnn) s = .next t ∧ t.pc.toNat = nnn.toNat ∧ t = { s with pc := t.pc } ∧
      (fetch t = none ↔ nnn = 0xFFF#12)) ∧
    (∃ t, exec (.jpV0 nnn) s = .next t ∧ t.pc.toNat = nnn.toNat + (s.reg 0).toNat ∧ t = { s with pc := t.pc } ∧
      (fetch t = none ↔ 0xFFF ≤ nnn.toNat + (s.reg 0).toNat))

/-- 42_control_flow R125, R126: the immediate skips advance PC by 4 where the condition holds, else by 2, and
change nothing else. -/
def Obligations.SkipsOnImmediate : Prop :=
  ∀ (x : RegIx) (nn : Byte) (s : State),
    exec (.seImm x nn) s = .next { s with pc := s.pc + (if s.reg x = nn then 4#16 else 2#16) } ∧
    exec (.sneImm x nn) s = .next { s with pc := s.pc + (if s.reg x ≠ nn then 4#16 else 2#16) }

/-- 5XY0 and 9XY0: the register skips; exactly one of the two skips on any operands (42_control_flow R127, R128;
that the low nibble must be 0 is decision D2, stated by DecodeErrorWordsExactly). -/
def Obligations.SkipsOnRegisters : Prop :=
  ∀ (x y : RegIx) (s : State),
    exec (.seReg x y) s = .next { s with pc := s.pc + (if s.reg x = s.reg y then 4#16 else 2#16) } ∧
    exec (.sneReg x y) s = .next { s with pc := s.pc + (if s.reg x = s.reg y then 2#16 else 4#16) }

/-- 2NNN with a free entry pushes PC + 2 and jumps (42_control_flow R123; the value pushed is decision D6, the
range of SP decision D7; log entries 8, 9). -/
def Obligations.CallPushesReturnAddress : Prop :=
  ∀ (nnn : Addr12) (s : State) (h : s.sp.val < 16), ∃ t, exec (.call nnn) s = .next t ∧
    t.stk[s.sp.val]'h = s.pc + 2#16 ∧ (∀ (k : Nat) (hk : k < 16), k ≠ s.sp.val → t.stk[k]'hk = s.stk[k]'hk) ∧
    t.sp.val = s.sp.val + 1 ∧ t.pc.toNat = nnn.toNat ∧ t = { s with stk := t.stk, sp := t.sp, pc := t.pc }

/-- 00EE with an entry in use: PC is the popped entry itself, and the entry stays in place (42_control_flow R124;
decision D6; log entry 8). -/
def Obligations.ReturnPopsReturnAddress : Prop :=
  ∀ (s : State) (k : Nat) (hk : k < 16), s.sp.val = k + 1 → ∃ t, exec .ret s = .next t ∧
    t.pc = s.stk[k]'hk ∧ t.sp.val = k ∧ t = { s with sp := t.sp, pc := t.pc }

/-- A call and the return that matches it come back to the word after the call with the stack pointer restored,
for every stack pointer a call can start from (95_test_vectors S4; decision D6; log entry 8). -/
def Obligations.CallThenReturn : Prop :=
  ∀ (nnn : Addr12) (s : State), s.sp.val < 16 → ∃ t u, exec (.call nnn) s = .next t ∧ exec .ret t = .next u ∧
    u.pc = s.pc + 2#16 ∧ u = { s with pc := u.pc, stk := u.stk } ∧
    (∀ (k : Nat) (hk : k < 16), k ≠ s.sp.val → u.stk[k]'hk = s.stk[k]'hk)

/-- A call at depth 16 is StackOverflow and a return at depth 0 StackUnderflow, with nothing else changed, while
the sixteenth call is legal (60_exceptions R202, R203, R206; decisions D7, D11; log entries 9, 13). -/
def Obligations.StackFaults : Prop :=
  ∀ (nnn : Addr12) (s : State),
    (s.sp.val = 16 → exec (.call nnn) s =
      .next { s with status := .fatal .stackOverflow s.pc (some (0x2#4 ++ nnn)) }) ∧
    (s.sp.val = 0 → exec .ret s = .next { s with status := .fatal .stackUnderflow s.pc (some 0x00EE#16) }) ∧
    (s.sp.val = 15 → ∃ t, exec (.call nnn) s = .next t ∧ t.sp.val = 16 ∧ t.status = s.status)

/-- 42_control_flow R129: every word of family 0 but the two literals is the legacy call, and executing it raises
DecodeError, always, with the word and PC recorded and no other effect. -/
def Obligations.LegacyCallIsDecodeError : Prop :=
  ∀ (op : Word) (s : State), op.toNat < 0x1000 → op ≠ 0x00E0#16 → op ≠ 0x00EE#16 →
    ∃ nnn : Addr12, nnn.toNat = op.toNat ∧ decode op = .ok (.sys nnn) ∧
      exec (.sys nnn) s = .next { s with status := .fatal .decodeError s.pc (some op) }

/-! ### Display -/

/-- 00E0: every pixel 0 and dirty set, VF not written (43_display R141; that it sets dirty is decision D16;
log entry 15). -/
def Obligations.ClearDisplay : Prop :=
  ∀ s : State, ∃ t, exec .cls s = .next t ∧ (∀ x y, t.fbOut x y = false) ∧ t.dirty = true ∧ t.pc = s.pc + 2#16 ∧
    t = { s with fb := t.fb, dirty := t.dirty, pc := t.pc }

/-- DXYN with its bytes in memory: every pixel of the grid is XORed with the sprite's bit there, pixels off the
grid are dropped, VF is the collision flag, dirty is set, and nothing else changes (43_display R142; clipping and
the raw origin are decision D13, the operands read first D15, dirty D16; log entries 7, 14, 15). -/
def Obligations.DrawXorsTheSprite : Prop :=
  ∀ (x y : RegIx) (n : Fin 16) (s : State), InMemory s n.val → ∃ t, exec (.drw x y n) s = .next t ∧
    (∀ px py, OnGrid px py → SpriteHas s x y n px py → t.fbOut px py = !s.fbOut px py) ∧
    (∀ px py, ¬ SpriteHas s x y n px py → t.fbOut px py = s.fbOut px py) ∧
    (Collides s x y n → t.reg 15 = 1) ∧ (¬ Collides s x y n → t.reg 15 = 0) ∧
    t.dirty = true ∧ t.pc = s.pc + 2#16 ∧ (∀ z, z ≠ 15 → t.reg z = s.reg z) ∧
    t = { s with v := t.v, fb := t.fb, dirty := t.dirty, pc := t.pc }

/-- The same draw twice leaves the framebuffer as it was, where the first flag write does not move the origin
(43_display R143 (1), the spec's own inference from R142; log entry 14). -/
def Obligations.DrawTwiceRestoresFramebuffer : Prop :=
  ∀ (x y : RegIx) (n : Fin 16) (s : State), x ≠ 15 → y ≠ 15 → InMemory s n.val →
    ∃ t u, exec (.drw x y n) s = .next t ∧ exec (.drw x y n) t = .next u ∧ u.fb = s.fb

/-- Over a part of the grid that is blank the first draw gives VF = 0, and the second gives VF = 1 exactly when
the sprite has a set bit on the grid (43_display R143 (2), the spec's own inference; log entry 14). -/
def Obligations.DrawTwiceFlags : Prop :=
  ∀ (x y : RegIx) (n : Fin 16) (s : State), x ≠ 15 → y ≠ 15 → InMemory s n.val →
    (∀ px py, SpriteHas s x y n px py → s.fbOut px py = false) →
    ∃ t u, exec (.drw x y n) s = .next t ∧ exec (.drw x y n) t = .next u ∧ t.reg 15 = 0 ∧
      (u.reg 15 = 1 ↔ ∃ px py, OnGrid px py ∧ SpriteHas s x y n px py) ∧ (u.reg 15 = 1 ∨ u.reg 15 = 0)

/-- The instructions that access memory through I take OutOfBounds exactly when some byte lies above 0xFFF, with
nothing else changed: no pixel, no byte, no register (43_display R142, 46_memory_block R173 to R177, 20_memory R59,
60_exceptions R206; decisions D8, D11, D14; log entries 10, 13, 14). -/
def Obligations.DataOutsideMemoryIsFatal : Prop :=
  ∀ (x y : RegIx) (n : Fin 16) (s : State),
    (¬ InMemory s n.val →
      exec (.drw x y n) s = .next { s with status := .fatal .outOfBounds s.pc (some (encode (.drw x y n))) }) ∧
    (0xFFF < s.i.toNat + 2 →
      exec (.ldBVx x) s = .next { s with status := .fatal .outOfBounds s.pc (some (encode (.ldBVx x))) }) ∧
    (0xFFF < s.i.toNat + x.val →
      exec (.ldMemVx x) s = .next { s with status := .fatal .outOfBounds s.pc (some (encode (.ldMemVx x))) } ∧
      exec (.ldVxMem x) s = .next { s with status := .fatal .outOfBounds s.pc (some (encode (.ldVxMem x))) })

/-! ### Keys -/

/-- EX9E and EXA1 with V[X] naming a key: the two skip on opposite levels of the key, whatever the level is
(44_input R151, R152; the sample is a free value where the host has fixed none, log entry 19). -/
def Obligations.KeySkips : Prop :=
  ∀ (x : RegIx) (s : State), (s.reg x).toNat ≤ 15 →
    ∃ t u, exec (.skp x) s = .next t ∧ exec (.sknp x) s = .next u ∧
      (∀ keys rest, s.env.keySamples = keys :: rest →
        t.pc = s.pc + (if keys.getLsbD (s.reg x).toNat then 4#16 else 2#16) ∧ t.env.keySamples = rest) ∧
      (t.pc = s.pc + 4#16 ∧ u.pc = s.pc + 2#16 ∨ t.pc = s.pc + 2#16 ∧ u.pc = s.pc + 4#16) ∧
      t = { s with pc := t.pc, env := { s.env with keySamples := t.env.keySamples, samples := t.env.samples } } ∧
      u = { t with pc := u.pc }

/-- A key number above 15 raises OutOfBounds and samples no key (44_input R150 to R152, decision D17; log
entry 16). -/
def Obligations.KeyNumberAboveFifteenIsFatal : Prop :=
  ∀ (x : RegIx) (s : State), 15 < (s.reg x).toNat →
    exec (.skp x) s = .next { s with status := .fatal .outOfBounds s.pc (some (encode (.skp x))) } ∧
    exec (.sknp x) s = .next { s with status := .fatal .outOfBounds s.pc (some (encode (.sknp x))) }

/-- FX0A begins the wait at once and changes nothing else, and after it Steps change nothing until a key comes
(44_input R153, 40_step R94, decisions D18, D30; log entries 13, 17). -/
def Obligations.KeyWaitBegins : Prop :=
  ∀ (x : RegIx) (s : State), exec (.ldVxK x) s = .next { s with status := .awaitingKey x } ∧
    (∀ n, s.env.calls = [] →
      Host.Core.run Sys2Proof.core n { s with status := .awaitingKey x } = .next { s with status := .awaitingKey x })

/-! ### Timers -/

/-- 45_timers R161 to R163: reading DT, setting DT, setting ST; the tone follows ST at once. -/
def Obligations.TimerInstructions : Prop :=
  ∀ (x : RegIx) (s : State),
    (∃ t, exec (.ldVxDt x) s = .next t ∧ t.reg x = s.dt ∧ t.pc = s.pc + 2#16 ∧ OnlyRegs [x] s t) ∧
    exec (.ldDtVx x) s = .next { s with dt := s.reg x, pc := s.pc + 2#16 } ∧
    (∃ t, exec (.ldStVx x) s = .next t ∧ t = { s with st := s.reg x, pc := s.pc + 2#16 } ∧
      (t.tone = true ↔ 0 < (s.reg x).toNat))

/-! ### Address register and memory block -/

/-- ANNN, FX1E and FX29: I receives NNN, I + V[X] modulo 65536, or V[X] * 5 unmasked; VF is not written
(46_memory_block R170, R171, R172; the first is general knowledge, the others rest on decisions D22 and D23; log
entries 3, 22, 23). -/
def Obligations.AddressRegisterInstructions : Prop :=
  ∀ (nnn : Addr12) (x : RegIx) (s : State),
    (∃ t, exec (.ldI nnn) s = .next t ∧ t.i.toNat = nnn.toNat ∧ t.pc = s.pc + 2#16 ∧
      t = { s with i := t.i, pc := t.pc }) ∧
    (∃ t, exec (.addI x) s = .next t ∧ t.i.toNat = (s.i.toNat + (s.reg x).toNat) % 65536 ∧ t.pc = s.pc + 2#16 ∧
      t = { s with i := t.i, pc := t.pc }) ∧
    (∃ t, exec (.ldFVx x) s = .next t ∧ t.i.toNat = (s.reg x).toNat * 5 ∧ t.pc = s.pc + 2#16 ∧
      t = { s with i := t.i, pc := t.pc })

/-- 46_memory_block R173: the hundreds, tens and ones digits at I, I + 1, I + 2, one byte each; where I + 2 is
above 0xFFF the condition OutOfBounds is taken and no byte is written. -/
def Obligations.BcdStoresThreeDigits : Prop :=
  ∀ (x : RegIx) (s : State), s.mem.wf →
    (s.i.toNat + 2 ≤ 0xFFF → ∃ t, exec (.ldBVx x) s = .next t ∧
      (t.mem.read s.i.toNat).toNat = (s.reg x).toNat / 100 ∧
      (t.mem.read (s.i.toNat + 1)).toNat = (s.reg x).toNat / 10 % 10 ∧
      (t.mem.read (s.i.toNat + 2)).toNat = (s.reg x).toNat % 10 ∧
      (∀ a, a < s.i.toNat ∨ s.i.toNat + 3 ≤ a → t.mem.read a = s.mem.read a) ∧
      t.pc = s.pc + 2#16 ∧ t = { s with mem := t.mem, pc := t.pc }) ∧
    (0xFFF < s.i.toNat + 2 → ∃ t o, exec (.ldBVx x) s = .next t ∧ t.status = .fatal .outOfBounds s.pc o ∧
      t.mem = s.mem ∧ t.pc = s.pc)

/-- FX55 with its bytes in memory: V[k] at I + k for k up to X, and no other byte; I and the registers keep their
values (46_memory_block R174; that I is kept is decision D22; log entry 22). -/
def Obligations.RegisterDump : Prop :=
  ∀ (x : RegIx) (s : State), s.mem.wf → s.i.toNat + x.val ≤ 0xFFF → ∃ t, exec (.ldMemVx x) s = .next t ∧
    (∀ k : RegIx, k ≤ x → t.mem.read (s.i.toNat + k.val) = s.reg k) ∧
    (∀ a, a < s.i.toNat ∨ s.i.toNat + x.val + 1 ≤ a → t.mem.read a = s.mem.read a) ∧
    t.pc = s.pc + 2#16 ∧ t = { s with mem := t.mem, pc := t.pc }

/-- FX65 with its bytes in memory: V[k] from I + k for k up to X, the other registers kept; I and memory keep
their values (46_memory_block R175; that I is kept is decision D22; log entry 22). -/
def Obligations.RegisterLoad : Prop :=
  ∀ (x : RegIx) (s : State), s.i.toNat + x.val ≤ 0xFFF → ∃ t, exec (.ldVxMem x) s = .next t ∧
    (∀ k : RegIx, k ≤ x → t.reg k = s.mem.read (s.i.toNat + k.val)) ∧
    (∀ k : RegIx, x < k → t.reg k = s.reg k) ∧ t.pc = s.pc + 2#16 ∧ t = { s with v := t.v, pc := t.pc }

/-- Dump and load are exact inverses: after a dump, a load with the same I and X into any register file gives back
V[0] to V[X] (46_memory_block R176, the spec's own inference from R174 and R175; log entry 22). -/
def Obligations.DumpThenLoadRoundTrip : Prop :=
  ∀ (x : RegIx) (s t : State) (w : Vector Byte 16), s.mem.wf → s.i.toNat + x.val ≤ 0xFFF →
    exec (.ldMemVx x) s = .next t →
    ∃ u, exec (.ldVxMem x) { t with v := w } = .next u ∧ (∀ k : RegIx, k ≤ x → u.reg k = s.reg k) ∧
      u.mem = t.mem

/-! ### Rules about the whole machine -/

/-- Every instruction answers a next state on every state: the fatal conditions are next states, and nothing is
refused (60_exceptions R206; log entry 13). -/
def Obligations.EveryInstructionAnswersNext : Prop :=
  ∀ (i : Instr) (s : State), ∃ t, exec i s = .next t

/-- An instruction that takes a fatal condition changes nothing but the status, which records the condition, PC
and the instruction's word (60_exceptions R206, R207, decisions D11, D32; log entries 13, 32). -/
def Obligations.FatalChangesOnlyStatus : Prop :=
  ∀ (i : Instr) (s t : State) (k : FatalKind) (p : Word) (o : Option Word), s.status = .running →
    exec i s = .next t → t.status = .fatal k p o →
    t = { s with status := .fatal k s.pc (some (encode i)) }

/-- Only FX33 and FX55 store to memory, each only its own bytes from I on; for every other instruction all of
memory reads as before (20_memory R58, R50). -/
def Obligations.MemoryWriters : Prop :=
  ∀ (i : Instr) (s t : State), s.mem.wf → exec i s = .next t →
    ∀ a, ¬ StoresTo s i a → t.mem.read a = s.mem.read a

/-- A register changes only where the instruction names it as a destination, loads it, or writes it as the flag:
no other instruction writes VF as a side effect (10_state R20, R21; log entry 7 for the flag's place). -/
def Obligations.RegisterWriters : Prop :=
  ∀ (i : Instr) (s t : State) (z : RegIx), exec i s = .next t → ¬ MayWrite i z → t.reg z = s.reg z

/-- The framebuffer and dirty are changed by 00E0 and DXYN alone (10_state R29, R30; log entry 15). -/
def Obligations.FramebufferWriters : Prop :=
  ∀ (i : Instr) (s t : State), exec i s = .next t → i ≠ .cls → (∀ x y n, i ≠ .drw x y n) →
    t.fb = s.fb ∧ t.dirty = s.dirty

/-- The stack is written by 2NNN alone, SP is moved by 2NNN and 00EE alone, I by ANNN, FX1E and FX29 alone, DT by
FX15 alone and ST by FX18 alone (10_state R22, R25 to R28; decisions D6, D22; log entries 8, 22). -/
def Obligations.SpecialRegisterWriters : Prop :=
  ∀ (i : Instr) (s t : State), exec i s = .next t →
    ((∀ n, i ≠ .call n) → t.stk = s.stk) ∧
    ((∀ n, i ≠ .call n) → i ≠ .ret → t.sp = s.sp) ∧
    ((∀ n, i ≠ .ldI n) → (∀ x, i ≠ .addI x) → (∀ x, i ≠ .ldFVx x) → t.i = s.i) ∧
    ((∀ x, i ≠ .ldDtVx x) → t.dt = s.dt) ∧
    ((∀ x, i ≠ .ldStVx x) → t.st = s.st)

/-- No instruction reads dirty and none reads ST: whatever the two hold, an instruction ends in the same state but
for those two fields (10_state R28, R30). -/
def Obligations.DirtyAndSoundAreInvisible : Prop :=
  ∀ (i : Instr) (s t : State) (d : Bool) (w : Byte), exec i s = .next t →
    ∃ t', exec i { s with dirty := d, st := w } = .next t' ∧ t' = { t with dirty := t'.dirty, st := t'.st }

/-- Memories in the canonical form that read alike are equal data (the form is the model's choice, log entry 28;
20_memory R50). -/
def Obligations.CanonicalMemoryIsUnique : Prop :=
  ∀ m m' : Memory, m.wf → m'.wf → (∀ a, m.read a = m'.read a) → m = m'

/-! ### The invariant -/

/-- The invariant holds at the start of every run, whatever the host will do (10_state R41; log entries 25, 27). -/
def Obligations.InvariantAtBoot : Prop :=
  State.reset.Inv ∧ ∀ calls rands keys, (State.boot calls rands keys).Inv

/-- Every step keeps the invariant: memory stays canonical, PC never passes 0x10FE, stack entries never pass
0x1000, a waiting core still stands on its FX0A, and the Fatal record is the word PC still points at (10_state R24,
R25, R31, 60_exceptions R207, 70_reset R242; log entries 8, 11, 13, 28). -/
def Obligations.InvariantKeptByEveryStep : Prop :=
  ∀ s t : State, s.Inv → step s = .next t → t.Inv

/-- Every state of every run meets the invariant, and a run that meets a Fatal state never leaves it but by a
Reset (60_exceptions R209, decision D11; log entries 13, 25). -/
def Obligations.ReachableStates : Prop :=
  (∀ s, Reachable s → s.Inv) ∧
  (∀ s t : State, step s = .next t → ¬ s.notFatal → s.env.calls.head? ≠ some .reset → t.status = s.status)
end

