-- ==== Sys2Proof/Laws/Decode.lean ====
section
/-! SUPPORT. The fields of an encoded word: each operand sits where 30_encoding R71 puts it. Words and fields
are compared as numbers. -/

namespace Sys2Proof

/-! ### Fields and formats as numbers -/

theorem fieldF_toNat (op : Word) : (fieldF op).toNat = op.toNat / 4096 := by
  have := op.isLt
  simp only [fieldF, BitVec.extractLsb'_toNat, Nat.shiftRight_eq_div_pow]
  omega
theorem fieldX_val (op : Word) : (fieldX op).val = op.toNat / 256 % 16 := by
  show (op.extractLsb' 8 4).toNat = _
  simp only [BitVec.extractLsb'_toNat, Nat.shiftRight_eq_div_pow]
theorem fieldY_val (op : Word) : (fieldY op).val = op.toNat / 16 % 16 := by
  show (op.extractLsb' 4 4).toNat = _
  simp only [BitVec.extractLsb'_toNat, Nat.shiftRight_eq_div_pow]
theorem fieldN_val (op : Word) : (fieldN op).val = op.toNat % 16 := by
  show (op.extractLsb' 0 4).toNat = _
  simp only [BitVec.extractLsb'_toNat, Nat.shiftRight_eq_div_pow, Nat.pow_zero, Nat.div_one]
theorem fieldNN_toNat (op : Word) : (fieldNN op).toNat = op.toNat % 256 := by
  simp only [fieldNN, BitVec.extractLsb'_toNat, Nat.shiftRight_eq_div_pow, Nat.pow_zero, Nat.div_one]
theorem fieldNNN_toNat (op : Word) : (fieldNNN op).toNat = op.toNat % 4096 := by
  simp only [fieldNNN, BitVec.extractLsb'_toNat, Nat.shiftRight_eq_div_pow, Nat.pow_zero, Nat.div_one]

theorem toNat_append_eq {m n : Nat} (a : BitVec m) (b : BitVec n) :
    (a ++ b).toNat = a.toNat * 2 ^ n + b.toNat := by
  rw [BitVec.toNat_append, ← Nat.shiftLeft_add_eq_or_of_lt b.isLt, Nat.shiftLeft_eq]

theorem packAddr_toNat (f : BitVec 4) (nnn : Addr12) : (packAddr f nnn).toNat = f.toNat * 4096 + nnn.toNat :=
  toNat_append_eq f nnn

theorem packXNN_toNat (f : BitVec 4) (x : RegIx) (nn : Byte) :
    (packXNN f x nn).toNat = f.toNat * 4096 + x.val * 256 + nn.toNat := by
  have h := toNat_append_eq (f ++ (BitVec.ofFin x : BitVec 4)) nn
  rw [toNat_append_eq f] at h
  have e : (BitVec.ofFin x : BitVec 4).toNat = x.val := rfl
  rw [e] at h
  exact h.trans (by omega)

theorem packXYN_toNat (f : BitVec 4) (x y : RegIx) (n : Fin 16) :
    (packXYN f x y n).toNat = f.toNat * 4096 + x.val * 256 + y.val * 16 + n.val := by
  have h := toNat_append_eq (f ++ (BitVec.ofFin x : BitVec 4) ++ (BitVec.ofFin y : BitVec 4)) (BitVec.ofFin n : BitVec 4)
  rw [toNat_append_eq (f ++ (BitVec.ofFin x : BitVec 4)), toNat_append_eq f] at h
  have e (z : Fin 16) : (BitVec.ofFin z : BitVec 4).toNat = z.val := rfl
  rw [e x, e y, e n] at h
  exact h.trans (by omega)

/-! ### Format ADDR -/

@[simp] theorem fieldF_packAddr (f : BitVec 4) (nnn : Addr12) : fieldF (packAddr f nnn) = f := by
  apply BitVec.eq_of_toNat_eq; rw [fieldF_toNat, packAddr_toNat]; omega
@[simp] theorem fieldNNN_packAddr (f : BitVec 4) (nnn : Addr12) : fieldNNN (packAddr f nnn) = nnn := by
  apply BitVec.eq_of_toNat_eq; rw [fieldNNN_toNat, packAddr_toNat]; omega

/-! ### Formats XIMM and XSEL -/

@[simp] theorem fieldF_packXNN (f : BitVec 4) (x : RegIx) (nn : Byte) : fieldF (packXNN f x nn) = f := by
  apply BitVec.eq_of_toNat_eq; rw [fieldF_toNat, packXNN_toNat]; omega
@[simp] theorem fieldX_packXNN (f : BitVec 4) (x : RegIx) (nn : Byte) : fieldX (packXNN f x nn) = x := by
  apply Fin.eq_of_val_eq; rw [fieldX_val, packXNN_toNat]; omega
@[simp] theorem fieldNN_packXNN (f : BitVec 4) (x : RegIx) (nn : Byte) : fieldNN (packXNN f x nn) = nn := by
  apply BitVec.eq_of_toNat_eq; rw [fieldNN_toNat, packXNN_toNat]; omega

/-! ### Formats XY and XYN -/

@[simp] theorem fieldF_packXYN (f : BitVec 4) (x y : RegIx) (n : Fin 16) : fieldF (packXYN f x y n) = f := by
  apply BitVec.eq_of_toNat_eq; rw [fieldF_toNat, packXYN_toNat]; omega
@[simp] theorem fieldX_packXYN (f : BitVec 4) (x y : RegIx) (n : Fin 16) : fieldX (packXYN f x y n) = x := by
  apply Fin.eq_of_val_eq; rw [fieldX_val, packXYN_toNat]; omega
@[simp] theorem fieldY_packXYN (f : BitVec 4) (x y : RegIx) (n : Fin 16) : fieldY (packXYN f x y n) = y := by
  apply Fin.eq_of_val_eq; rw [fieldY_val, packXYN_toNat]; omega
@[simp] theorem fieldN_packXYN (f : BitVec 4) (x y : RegIx) (n : Fin 16) : fieldN (packXYN f x y n) = n := by
  apply Fin.eq_of_val_eq; rw [fieldN_val, packXYN_toNat]; omega

/-! ### Every word is its own fields put together -/

theorem packAddr_fields (op : Word) : packAddr (fieldF op) (fieldNNN op) = op := by
  apply BitVec.eq_of_toNat_eq; rw [packAddr_toNat, fieldF_toNat, fieldNNN_toNat]; omega

theorem packXNN_fields (op : Word) : packXNN (fieldF op) (fieldX op) (fieldNN op) = op := by
  apply BitVec.eq_of_toNat_eq; rw [packXNN_toNat, fieldF_toNat, fieldX_val, fieldNN_toNat]; omega

theorem packXYN_fields (op : Word) : packXYN (fieldF op) (fieldX op) (fieldY op) (fieldN op) = op := by
  apply BitVec.eq_of_toNat_eq; rw [packXYN_toNat, fieldF_toNat, fieldX_val, fieldY_val, fieldN_val]; omega

/-- The two bytes of a word, read back big-endian, are the word (20_memory R56). -/
@[simp] theorem wordOfBytes_extract (op : Word) : wordOfBytes (op.extractLsb' 8 8) (op.extractLsb' 0 8) = op := by
  apply BitVec.eq_of_toNat_eq
  have h : (wordOfBytes (op.extractLsb' 8 8) (op.extractLsb' 0 8)).toNat = _ :=
    toNat_append_eq (op.extractLsb' 8 8) (op.extractLsb' 0 8)
  rw [h]
  have := op.isLt
  simp only [BitVec.extractLsb'_toNat, Nat.shiftRight_eq_div_pow]
  omega

end Sys2Proof
end

