-- ==== Sys2Proof/Laws/Display.lean ====
section
/-! SUPPORT. What the framebuffer operations do, pixel by pixel. -/

namespace Sys2Proof.Machine

theorem Framebuffer.pixel_offScreen {fb : Framebuffer} {x y : Nat} (h : onScreen x y = false) :
    Framebuffer.pixel fb x y = false := by
  simp only [onScreen, decide_eq_false_iff_not] at h
  simp [Framebuffer.pixel, h]

theorem Framebuffer.pixel_blank (x y : Nat) : Framebuffer.pixel Framebuffer.blank x y = false := by
  simp [Framebuffer.pixel, Framebuffer.blank]

/-- A flip changes the one pixel, if it is on the grid. -/
theorem Framebuffer.pixel_flip (fb : Framebuffer) (x y x' y' : Nat) :
    Framebuffer.pixel (Framebuffer.flip fb x y) x' y' =
      (Framebuffer.pixel fb x' y' ^^ (onScreen x y && decide (x' = x ∧ y' = y))) := by
  unfold Framebuffer.flip onScreen
  split
  · next h =>
    unfold Framebuffer.pixel
    split
    · next h' =>
      by_cases hy : y = y'
      · subst hy
        by_cases hx : x = x'
        · subst hx; simp [h]
        · simp [hx, Ne.symm hx]
      · simp [hy, Ne.symm hy]
    · next h' =>
      have : ¬ (x' = x ∧ y' = y) := fun e => h' (by rw [e.1, e.2]; exact h)
      simp [this]
  · next h => simp [h]

/-- Two framebuffers with equal pixels are equal. -/
theorem Framebuffer.ext_pixel {f g : Framebuffer}
    (h : ∀ x y, Framebuffer.pixel f x y = Framebuffer.pixel g x y) : f = g := by
  refine Vector.ext fun y hy => Vector.ext fun x hx => ?_
  have := h x y
  simpa only [Framebuffer.pixel, dif_pos (And.intro hy hx)] using this

theorem drawBit_pixel (bit : Bool) (x y x' y' : Nat) (acc : Framebuffer × Bool) :
    Framebuffer.pixel (drawBit bit x y acc).1 x' y' =
      (Framebuffer.pixel acc.1 x' y' ^^ (bit && onScreen x y && decide (x' = x ∧ y' = y))) := by
  unfold drawBit
  cases hb : bit <;> cases ho : onScreen x y <;> simp [Framebuffer.pixel_flip, ho]

theorem drawBit_hit (bit : Bool) (x y : Nat) (acc : Framebuffer × Bool) :
    (drawBit bit x y acc).2 = (acc.2 || (bit && Framebuffer.pixel acc.1 x y)) := by
  unfold drawBit
  cases hb : bit <;> cases ho : onScreen x y <;> simp [Framebuffer.pixel_offScreen, ho]

/-- The first `n` columns of a row: each pixel is XORed with the sprite's bit, and the flag collects the lit
pixels under set bits. -/
theorem drawCols_spec (b : Byte) (x0 y n : Nat) (hn : n ≤ 8) (acc : Framebuffer × Bool) :
    (∀ x' y', Framebuffer.pixel
        ((List.range n).foldl (fun acc c => drawBit (b.getLsbD (7 - c)) (x0 + c) y acc) acc).1 x' y' =
      (Framebuffer.pixel acc.1 x' y' ^^
        (onScreen x' y' && decide (y' = y) && decide (x' < x0 + n) && rowBit b x0 x'))) ∧
    (((List.range n).foldl (fun acc c => drawBit (b.getLsbD (7 - c)) (x0 + c) y acc) acc).2 = true ↔
      acc.2 = true ∨ ∃ x', x' < x0 + n ∧ rowBit b x0 x' = true ∧ Framebuffer.pixel acc.1 x' y = true) := by
  induction n with
  | zero =>
    refine ⟨fun x' y' => ?_, ?_⟩
    · by_cases h : x' < x0
      · simp [rowBit, Nat.not_le.mpr h]
      · simp [h]
    · simp only [List.range_zero, List.foldl_nil, Nat.add_zero]
      refine ⟨.inl, fun h => h.elim id fun ⟨x', h1, h2, _⟩ => ?_⟩
      simp [rowBit, Nat.not_le.mpr h1] at h2
  | succ n ih =>
    obtain ⟨ihp, ihh⟩ := ih (by omega)
    rw [List.range_succ, List.foldl_append, List.foldl_cons, List.foldl_nil]
    refine ⟨fun x' y' => ?_, ?_⟩
    · rw [drawBit_pixel, ihp]
      by_cases hx : x' = x0 + n
      · subst hx
        by_cases hy : y' = y
        · subst hy
          have h1 : rowBit b x0 (x0 + n) = b.getLsbD (7 - n) := by
            have : n < 8 := by omega
            simp [rowBit, this]
          simp only [h1]
          have h2 : decide (x0 + n < x0 + n) = false := by simp
          have h3 : decide (x0 + n < x0 + (n + 1)) = true := by simp
          simp only [h2, h3]
          cases Framebuffer.pixel acc.1 (x0 + n) y' <;> cases onScreen (x0 + n) y' <;> cases b.getLsbD (7 - n) <;> simp
        · simp [hy]
      · have : decide (x' < x0 + (n + 1)) = decide (x' < x0 + n) := by
          simp only [decide_eq_decide]; omega
        simp [hx, this]
    · rw [drawBit_hit, Bool.or_eq_true, ihh, Bool.and_eq_true, ihp]
      have h1 : rowBit b x0 (x0 + n) = b.getLsbD (7 - n) := by
        have : n < 8 := by omega
        simp [rowBit, this]
      have h2 : decide (x0 + n < x0 + n) = false := by simp
      simp only [h2, Bool.and_false, Bool.false_and, Bool.xor_false]
      constructor
      · rintro ((h | ⟨x', h, h', h''⟩) | ⟨h, h'⟩)
        · exact .inl h
        · exact .inr ⟨x', by omega, h', h''⟩
        · exact .inr ⟨x0 + n, by omega, h1.trans h, h'⟩
      · rintro (h | ⟨x', h, h', h''⟩)
        · exact .inl (.inl h)
        · by_cases hx : x' = x0 + n
          · subst hx; exact .inr ⟨h1 ▸ h', h''⟩
          · exact .inl (.inr ⟨x', by omega, h', h''⟩)

theorem drawRow_pixel (b : Byte) (x0 y x' y' : Nat) (acc : Framebuffer × Bool) :
    Framebuffer.pixel (drawRow b x0 y acc).1 x' y' =
      (Framebuffer.pixel acc.1 x' y' ^^ (onScreen x' y' && decide (y' = y) && rowBit b x0 x')) := by
  rw [drawRow, (drawCols_spec b x0 y 8 (Nat.le_refl 8) acc).1]
  by_cases h : x' < x0 + 8 <;> simp [rowBit, h]

theorem drawRow_hit (b : Byte) (x0 y : Nat) (acc : Framebuffer × Bool) :
    (drawRow b x0 y acc).2 = true ↔
      acc.2 = true ∨ ∃ x', rowBit b x0 x' = true ∧ Framebuffer.pixel acc.1 x' y = true := by
  rw [drawRow, (drawCols_spec b x0 y 8 (Nat.le_refl 8) acc).2]
  refine or_congr Iff.rfl (exists_congr fun x' => ⟨And.right, fun h => ⟨?_, h⟩⟩)
  have := h.1
  simp only [rowBit, Bool.and_eq_true, decide_eq_true_eq] at this
  exact this.1.2

theorem spriteBit_cons (b : Byte) (bs : List Byte) (x0 y0 x y : Nat) :
    spriteBit (b :: bs) x0 y0 x y =
      ((decide (y = y0) && rowBit b x0 x) || spriteBit bs x0 (y0 + 1) x y) := by
  unfold spriteBit
  by_cases h : y = y0
  · subst h; simp [Nat.not_succ_le_self]
  · by_cases h1 : y0 + 1 ≤ y ∧ y < y0 + 1 + bs.length
    · have h2 : y0 ≤ y ∧ y < y0 + (b :: bs).length := by simp only [List.length_cons]; omega
      have h3 : y - y0 = (y - (y0 + 1)) + 1 := by omega
      rw [decide_eq_true h1, decide_eq_true h2, h3, List.getD_cons_succ]
      simp [h]
    · have h2 : ¬ (y0 ≤ y ∧ y < y0 + (b :: bs).length) := by simp only [List.length_cons]; omega
      rw [decide_eq_false h1, decide_eq_false h2]
      simp [h]

/-- Rows below the one drawn do not touch it. -/
theorem spriteBit_above (bs : List Byte) (x0 y0 x : Nat) : spriteBit bs x0 (y0 + 1) x y0 = false := by
  simp [spriteBit, Nat.not_succ_le_self]

theorem drawRows_spec (bs : List Byte) (x0 y0 : Nat) (acc : Framebuffer × Bool) :
    (∀ x y, Framebuffer.pixel (drawRows bs x0 y0 acc).1 x y =
      (Framebuffer.pixel acc.1 x y ^^ (onScreen x y && spriteBit bs x0 y0 x y))) ∧
    ((drawRows bs x0 y0 acc).2 = true ↔
      acc.2 = true ∨ ∃ x y, spriteBit bs x0 y0 x y = true ∧ Framebuffer.pixel acc.1 x y = true) := by
  induction bs generalizing y0 acc with
  | nil =>
    refine ⟨fun x y => ?_, ?_⟩
    · have : ¬ (y0 ≤ y ∧ y < y0) := by omega
      simp [drawRows, spriteBit, this]
    · have (y : Nat) : ¬ (y0 ≤ y ∧ y < y0) := by omega
      simp [drawRows, spriteBit, this]
  | cons b bs ih =>
    obtain ⟨ihp, ihh⟩ := ih (y0 + 1) (drawRow b x0 y0 acc)
    refine ⟨fun x y => ?_, ?_⟩
    · rw [drawRows, ihp, drawRow_pixel, spriteBit_cons]
      by_cases hy : y = y0
      · subst hy; simp [spriteBit_above]
      · simp [hy]
    · rw [drawRows, ihh, drawRow_hit]
      constructor
      · rintro ((h | ⟨x, h, h'⟩) | ⟨x, y, h, h'⟩)
        · exact .inl h
        · exact .inr ⟨x, y0, by simp [spriteBit_cons, h], h'⟩
        · have hy : y ≠ y0 := by rintro rfl; simp [spriteBit_above] at h
          exact .inr ⟨x, y, by simp [spriteBit_cons, h], by simpa [drawRow_pixel, hy] using h'⟩
      · rintro (h | ⟨x, y, h, h'⟩)
        · exact .inl (.inl h)
        · rw [spriteBit_cons] at h
          by_cases hy : y = y0
          · subst hy
            exact .inl (.inr ⟨x, by simpa [spriteBit_above] using h, h'⟩)
          · exact .inr ⟨x, y, by simpa [hy] using h, by simpa [drawRow_pixel, hy] using h'⟩

/-- A draw XORs every pixel on the grid with the sprite's bit there (43_display R142). -/
theorem drawSprite_pixel (fb : Framebuffer) (x0 y0 x y : Nat) (rows : List Byte) :
    Framebuffer.pixel (drawSprite fb x0 y0 rows).1 x y =
      (Framebuffer.pixel fb x y ^^ (onScreen x y && spriteBit rows x0 y0 x y)) :=
  (drawRows_spec rows x0 y0 (fb, false)).1 x y

/-- A draw hits when some set bit of the sprite lies on a lit pixel (43_display R142). -/
theorem drawSprite_hit (fb : Framebuffer) (x0 y0 : Nat) (rows : List Byte) :
    (drawSprite fb x0 y0 rows).2 = true ↔
      ∃ x y, spriteBit rows x0 y0 x y = true ∧ Framebuffer.pixel fb x y = true := by
  simpa [drawSprite] using (drawRows_spec rows x0 y0 (fb, false)).2

end Sys2Proof.Machine
end

