-- ==== Sys2Proof/Laws/State.lean ====
section
/-! SUPPORT. One lemma per field per update of State: later proofs rewrite with these and unfold no update. -/

namespace Sys2Proof.Machine.State

variable (s : State)

/-! ### setReg -/

@[simp] theorem setReg_v (x : RegIx) (b : Byte) : (s.setReg x b).v = s.v.set x.val b := rfl
@[simp] theorem setReg_i (x : RegIx) (b : Byte) : (s.setReg x b).i = s.i := rfl
@[simp] theorem setReg_pc (x : RegIx) (b : Byte) : (s.setReg x b).pc = s.pc := rfl
@[simp] theorem setReg_sp (x : RegIx) (b : Byte) : (s.setReg x b).sp = s.sp := rfl
@[simp] theorem setReg_stk (x : RegIx) (b : Byte) : (s.setReg x b).stk = s.stk := rfl
@[simp] theorem setReg_dt (x : RegIx) (b : Byte) : (s.setReg x b).dt = s.dt := rfl
@[simp] theorem setReg_st (x : RegIx) (b : Byte) : (s.setReg x b).st = s.st := rfl
@[simp] theorem setReg_mem (x : RegIx) (b : Byte) : (s.setReg x b).mem = s.mem := rfl
@[simp] theorem setReg_fb (x : RegIx) (b : Byte) : (s.setReg x b).fb = s.fb := rfl
@[simp] theorem setReg_dirty (x : RegIx) (b : Byte) : (s.setReg x b).dirty = s.dirty := rfl
@[simp] theorem setReg_status (x : RegIx) (b : Byte) : (s.setReg x b).status = s.status := rfl
@[simp] theorem setReg_env (x : RegIx) (b : Byte) : (s.setReg x b).env = s.env := rfl

/-! ### setRegs -/

@[simp] theorem setRegs_v (w : Vector Byte Config.numRegs) : (s.setRegs w).v = w := rfl
@[simp] theorem setRegs_i (w : Vector Byte Config.numRegs) : (s.setRegs w).i = s.i := rfl
@[simp] theorem setRegs_pc (w : Vector Byte Config.numRegs) : (s.setRegs w).pc = s.pc := rfl
@[simp] theorem setRegs_sp (w : Vector Byte Config.numRegs) : (s.setRegs w).sp = s.sp := rfl
@[simp] theorem setRegs_stk (w : Vector Byte Config.numRegs) : (s.setRegs w).stk = s.stk := rfl
@[simp] theorem setRegs_dt (w : Vector Byte Config.numRegs) : (s.setRegs w).dt = s.dt := rfl
@[simp] theorem setRegs_st (w : Vector Byte Config.numRegs) : (s.setRegs w).st = s.st := rfl
@[simp] theorem setRegs_mem (w : Vector Byte Config.numRegs) : (s.setRegs w).mem = s.mem := rfl
@[simp] theorem setRegs_fb (w : Vector Byte Config.numRegs) : (s.setRegs w).fb = s.fb := rfl
@[simp] theorem setRegs_dirty (w : Vector Byte Config.numRegs) : (s.setRegs w).dirty = s.dirty := rfl
@[simp] theorem setRegs_status (w : Vector Byte Config.numRegs) : (s.setRegs w).status = s.status := rfl
@[simp] theorem setRegs_env (w : Vector Byte Config.numRegs) : (s.setRegs w).env = s.env := rfl

/-! ### setI -/

@[simp] theorem setI_v (w : Word) : (s.setI w).v = s.v := rfl
@[simp] theorem setI_i (w : Word) : (s.setI w).i = w := rfl
@[simp] theorem setI_pc (w : Word) : (s.setI w).pc = s.pc := rfl
@[simp] theorem setI_sp (w : Word) : (s.setI w).sp = s.sp := rfl
@[simp] theorem setI_stk (w : Word) : (s.setI w).stk = s.stk := rfl
@[simp] theorem setI_dt (w : Word) : (s.setI w).dt = s.dt := rfl
@[simp] theorem setI_st (w : Word) : (s.setI w).st = s.st := rfl
@[simp] theorem setI_mem (w : Word) : (s.setI w).mem = s.mem := rfl
@[simp] theorem setI_fb (w : Word) : (s.setI w).fb = s.fb := rfl
@[simp] theorem setI_dirty (w : Word) : (s.setI w).dirty = s.dirty := rfl
@[simp] theorem setI_status (w : Word) : (s.setI w).status = s.status := rfl
@[simp] theorem setI_env (w : Word) : (s.setI w).env = s.env := rfl
@[simp] theorem reg_setI (w : Word) (z : RegIx) : (s.setI w).reg z = s.reg z := rfl

/-! ### setPc -/

@[simp] theorem setPc_v (w : Word) : (s.setPc w).v = s.v := rfl
@[simp] theorem setPc_i (w : Word) : (s.setPc w).i = s.i := rfl
@[simp] theorem setPc_pc (w : Word) : (s.setPc w).pc = w := rfl
@[simp] theorem setPc_sp (w : Word) : (s.setPc w).sp = s.sp := rfl
@[simp] theorem setPc_stk (w : Word) : (s.setPc w).stk = s.stk := rfl
@[simp] theorem setPc_dt (w : Word) : (s.setPc w).dt = s.dt := rfl
@[simp] theorem setPc_st (w : Word) : (s.setPc w).st = s.st := rfl
@[simp] theorem setPc_mem (w : Word) : (s.setPc w).mem = s.mem := rfl
@[simp] theorem setPc_fb (w : Word) : (s.setPc w).fb = s.fb := rfl
@[simp] theorem setPc_dirty (w : Word) : (s.setPc w).dirty = s.dirty := rfl
@[simp] theorem setPc_status (w : Word) : (s.setPc w).status = s.status := rfl
@[simp] theorem setPc_env (w : Word) : (s.setPc w).env = s.env := rfl
@[simp] theorem reg_setPc (w : Word) (z : RegIx) : (s.setPc w).reg z = s.reg z := rfl

/-! ### setDt -/

@[simp] theorem setDt_v (b : Byte) : (s.setDt b).v = s.v := rfl
@[simp] theorem setDt_i (b : Byte) : (s.setDt b).i = s.i := rfl
@[simp] theorem setDt_pc (b : Byte) : (s.setDt b).pc = s.pc := rfl
@[simp] theorem setDt_sp (b : Byte) : (s.setDt b).sp = s.sp := rfl
@[simp] theorem setDt_stk (b : Byte) : (s.setDt b).stk = s.stk := rfl
@[simp] theorem setDt_dt (b : Byte) : (s.setDt b).dt = b := rfl
@[simp] theorem setDt_st (b : Byte) : (s.setDt b).st = s.st := rfl
@[simp] theorem setDt_mem (b : Byte) : (s.setDt b).mem = s.mem := rfl
@[simp] theorem setDt_fb (b : Byte) : (s.setDt b).fb = s.fb := rfl
@[simp] theorem setDt_dirty (b : Byte) : (s.setDt b).dirty = s.dirty := rfl
@[simp] theorem setDt_status (b : Byte) : (s.setDt b).status = s.status := rfl
@[simp] theorem setDt_env (b : Byte) : (s.setDt b).env = s.env := rfl
@[simp] theorem reg_setDt (b : Byte) (z : RegIx) : (s.setDt b).reg z = s.reg z := rfl

/-! ### setSt -/

@[simp] theorem setSt_v (b : Byte) : (s.setSt b).v = s.v := rfl
@[simp] theorem setSt_i (b : Byte) : (s.setSt b).i = s.i := rfl
@[simp] theorem setSt_pc (b : Byte) : (s.setSt b).pc = s.pc := rfl
@[simp] theorem setSt_sp (b : Byte) : (s.setSt b).sp = s.sp := rfl
@[simp] theorem setSt_stk (b : Byte) : (s.setSt b).stk = s.stk := rfl
@[simp] theorem setSt_dt (b : Byte) : (s.setSt b).dt = s.dt := rfl
@[simp] theorem setSt_st (b : Byte) : (s.setSt b).st = b := rfl
@[simp] theorem setSt_mem (b : Byte) : (s.setSt b).mem = s.mem := rfl
@[simp] theorem setSt_fb (b : Byte) : (s.setSt b).fb = s.fb := rfl
@[simp] theorem setSt_dirty (b : Byte) : (s.setSt b).dirty = s.dirty := rfl
@[simp] theorem setSt_status (b : Byte) : (s.setSt b).status = s.status := rfl
@[simp] theorem setSt_env (b : Byte) : (s.setSt b).env = s.env := rfl
@[simp] theorem reg_setSt (b : Byte) (z : RegIx) : (s.setSt b).reg z = s.reg z := rfl

/-! ### setMem -/

@[simp] theorem setMem_v (m : Memory) : (s.setMem m).v = s.v := rfl
@[simp] theorem setMem_i (m : Memory) : (s.setMem m).i = s.i := rfl
@[simp] theorem setMem_pc (m : Memory) : (s.setMem m).pc = s.pc := rfl
@[simp] theorem setMem_sp (m : Memory) : (s.setMem m).sp = s.sp := rfl
@[simp] theorem setMem_stk (m : Memory) : (s.setMem m).stk = s.stk := rfl
@[simp] theorem setMem_dt (m : Memory) : (s.setMem m).dt = s.dt := rfl
@[simp] theorem setMem_st (m : Memory) : (s.setMem m).st = s.st := rfl
@[simp] theorem setMem_mem (m : Memory) : (s.setMem m).mem = m := rfl
@[simp] theorem setMem_fb (m : Memory) : (s.setMem m).fb = s.fb := rfl
@[simp] theorem setMem_dirty (m : Memory) : (s.setMem m).dirty = s.dirty := rfl
@[simp] theorem setMem_status (m : Memory) : (s.setMem m).status = s.status := rfl
@[simp] theorem setMem_env (m : Memory) : (s.setMem m).env = s.env := rfl
@[simp] theorem reg_setMem (m : Memory) (z : RegIx) : (s.setMem m).reg z = s.reg z := rfl

/-! ### setFb -/

@[simp] theorem setFb_v (f : Framebuffer) : (s.setFb f).v = s.v := rfl
@[simp] theorem setFb_i (f : Framebuffer) : (s.setFb f).i = s.i := rfl
@[simp] theorem setFb_pc (f : Framebuffer) : (s.setFb f).pc = s.pc := rfl
@[simp] theorem setFb_sp (f : Framebuffer) : (s.setFb f).sp = s.sp := rfl
@[simp] theorem setFb_stk (f : Framebuffer) : (s.setFb f).stk = s.stk := rfl
@[simp] theorem setFb_dt (f : Framebuffer) : (s.setFb f).dt = s.dt := rfl
@[simp] theorem setFb_st (f : Framebuffer) : (s.setFb f).st = s.st := rfl
@[simp] theorem setFb_mem (f : Framebuffer) : (s.setFb f).mem = s.mem := rfl
@[simp] theorem setFb_fb (f : Framebuffer) : (s.setFb f).fb = f := rfl
@[simp] theorem setFb_dirty (f : Framebuffer) : (s.setFb f).dirty = true := rfl
@[simp] theorem setFb_status (f : Framebuffer) : (s.setFb f).status = s.status := rfl
@[simp] theorem setFb_env (f : Framebuffer) : (s.setFb f).env = s.env := rfl
@[simp] theorem reg_setFb (f : Framebuffer) (z : RegIx) : (s.setFb f).reg z = s.reg z := rfl

/-! ### setDirty -/

@[simp] theorem setDirty_v (b : Bool) : (s.setDirty b).v = s.v := rfl
@[simp] theorem setDirty_i (b : Bool) : (s.setDirty b).i = s.i := rfl
@[simp] theorem setDirty_pc (b : Bool) : (s.setDirty b).pc = s.pc := rfl
@[simp] theorem setDirty_sp (b : Bool) : (s.setDirty b).sp = s.sp := rfl
@[simp] theorem setDirty_stk (b : Bool) : (s.setDirty b).stk = s.stk := rfl
@[simp] theorem setDirty_dt (b : Bool) : (s.setDirty b).dt = s.dt := rfl
@[simp] theorem setDirty_st (b : Bool) : (s.setDirty b).st = s.st := rfl
@[simp] theorem setDirty_mem (b : Bool) : (s.setDirty b).mem = s.mem := rfl
@[simp] theorem setDirty_fb (b : Bool) : (s.setDirty b).fb = s.fb := rfl
@[simp] theorem setDirty_dirty (b : Bool) : (s.setDirty b).dirty = b := rfl
@[simp] theorem setDirty_status (b : Bool) : (s.setDirty b).status = s.status := rfl
@[simp] theorem setDirty_env (b : Bool) : (s.setDirty b).env = s.env := rfl
@[simp] theorem reg_setDirty (b : Bool) (z : RegIx) : (s.setDirty b).reg z = s.reg z := rfl

/-! ### setStatus -/

@[simp] theorem setStatus_v (t : Status) : (s.setStatus t).v = s.v := rfl
@[simp] theorem setStatus_i (t : Status) : (s.setStatus t).i = s.i := rfl
@[simp] theorem setStatus_pc (t : Status) : (s.setStatus t).pc = s.pc := rfl
@[simp] theorem setStatus_sp (t : Status) : (s.setStatus t).sp = s.sp := rfl
@[simp] theorem setStatus_stk (t : Status) : (s.setStatus t).stk = s.stk := rfl
@[simp] theorem setStatus_dt (t : Status) : (s.setStatus t).dt = s.dt := rfl
@[simp] theorem setStatus_st (t : Status) : (s.setStatus t).st = s.st := rfl
@[simp] theorem setStatus_mem (t : Status) : (s.setStatus t).mem = s.mem := rfl
@[simp] theorem setStatus_fb (t : Status) : (s.setStatus t).fb = s.fb := rfl
@[simp] theorem setStatus_dirty (t : Status) : (s.setStatus t).dirty = s.dirty := rfl
@[simp] theorem setStatus_status (t : Status) : (s.setStatus t).status = t := rfl
@[simp] theorem setStatus_env (t : Status) : (s.setStatus t).env = s.env := rfl
@[simp] theorem reg_setStatus (t : Status) (z : RegIx) : (s.setStatus t).reg z = s.reg z := rfl

/-! ### setEnv -/

@[simp] theorem setEnv_v (e : Env) : (s.setEnv e).v = s.v := rfl
@[simp] theorem setEnv_i (e : Env) : (s.setEnv e).i = s.i := rfl
@[simp] theorem setEnv_pc (e : Env) : (s.setEnv e).pc = s.pc := rfl
@[simp] theorem setEnv_sp (e : Env) : (s.setEnv e).sp = s.sp := rfl
@[simp] theorem setEnv_stk (e : Env) : (s.setEnv e).stk = s.stk := rfl
@[simp] theorem setEnv_dt (e : Env) : (s.setEnv e).dt = s.dt := rfl
@[simp] theorem setEnv_st (e : Env) : (s.setEnv e).st = s.st := rfl
@[simp] theorem setEnv_mem (e : Env) : (s.setEnv e).mem = s.mem := rfl
@[simp] theorem setEnv_fb (e : Env) : (s.setEnv e).fb = s.fb := rfl
@[simp] theorem setEnv_dirty (e : Env) : (s.setEnv e).dirty = s.dirty := rfl
@[simp] theorem setEnv_status (e : Env) : (s.setEnv e).status = s.status := rfl
@[simp] theorem setEnv_env (e : Env) : (s.setEnv e).env = e := rfl
@[simp] theorem reg_setEnv (e : Env) (z : RegIx) : (s.setEnv e).reg z = s.reg z := rfl

/-! ### setRegFlag -/

@[simp] theorem setRegFlag_v (x : RegIx) (r : Byte) (f : Bool) : (s.setRegFlag x r f).v = (s.v.set x.val r).set 15 (flagByte f) := rfl
@[simp] theorem setRegFlag_i (x : RegIx) (r : Byte) (f : Bool) : (s.setRegFlag x r f).i = s.i := rfl
@[simp] theorem setRegFlag_pc (x : RegIx) (r : Byte) (f : Bool) : (s.setRegFlag x r f).pc = s.pc := rfl
@[simp] theorem setRegFlag_sp (x : RegIx) (r : Byte) (f : Bool) : (s.setRegFlag x r f).sp = s.sp := rfl
@[simp] theorem setRegFlag_stk (x : RegIx) (r : Byte) (f : Bool) : (s.setRegFlag x r f).stk = s.stk := rfl
@[simp] theorem setRegFlag_dt (x : RegIx) (r : Byte) (f : Bool) : (s.setRegFlag x r f).dt = s.dt := rfl
@[simp] theorem setRegFlag_st (x : RegIx) (r : Byte) (f : Bool) : (s.setRegFlag x r f).st = s.st := rfl
@[simp] theorem setRegFlag_mem (x : RegIx) (r : Byte) (f : Bool) : (s.setRegFlag x r f).mem = s.mem := rfl
@[simp] theorem setRegFlag_fb (x : RegIx) (r : Byte) (f : Bool) : (s.setRegFlag x r f).fb = s.fb := rfl
@[simp] theorem setRegFlag_dirty (x : RegIx) (r : Byte) (f : Bool) : (s.setRegFlag x r f).dirty = s.dirty := rfl
@[simp] theorem setRegFlag_status (x : RegIx) (r : Byte) (f : Bool) : (s.setRegFlag x r f).status = s.status := rfl
@[simp] theorem setRegFlag_env (x : RegIx) (r : Byte) (f : Bool) : (s.setRegFlag x r f).env = s.env := rfl

/-! ### advance -/

@[simp] theorem advance_v : s.advance.v = s.v := rfl
@[simp] theorem advance_i : s.advance.i = s.i := rfl
@[simp] theorem advance_pc : s.advance.pc = s.pc + 2#16 := rfl
@[simp] theorem advance_sp : s.advance.sp = s.sp := rfl
@[simp] theorem advance_stk : s.advance.stk = s.stk := rfl
@[simp] theorem advance_dt : s.advance.dt = s.dt := rfl
@[simp] theorem advance_st : s.advance.st = s.st := rfl
@[simp] theorem advance_mem : s.advance.mem = s.mem := rfl
@[simp] theorem advance_fb : s.advance.fb = s.fb := rfl
@[simp] theorem advance_dirty : s.advance.dirty = s.dirty := rfl
@[simp] theorem advance_status : s.advance.status = s.status := rfl
@[simp] theorem advance_env : s.advance.env = s.env := rfl
@[simp] theorem reg_advance (z : RegIx) : s.advance.reg z = s.reg z := rfl

/-! ### skipIf -/

@[simp] theorem skipIf_v (c : Bool) : (s.skipIf c).v = s.v := rfl
@[simp] theorem skipIf_i (c : Bool) : (s.skipIf c).i = s.i := rfl
@[simp] theorem skipIf_sp (c : Bool) : (s.skipIf c).sp = s.sp := rfl
@[simp] theorem skipIf_stk (c : Bool) : (s.skipIf c).stk = s.stk := rfl
@[simp] theorem skipIf_dt (c : Bool) : (s.skipIf c).dt = s.dt := rfl
@[simp] theorem skipIf_st (c : Bool) : (s.skipIf c).st = s.st := rfl
@[simp] theorem skipIf_mem (c : Bool) : (s.skipIf c).mem = s.mem := rfl
@[simp] theorem skipIf_fb (c : Bool) : (s.skipIf c).fb = s.fb := rfl
@[simp] theorem skipIf_dirty (c : Bool) : (s.skipIf c).dirty = s.dirty := rfl
@[simp] theorem skipIf_status (c : Bool) : (s.skipIf c).status = s.status := rfl
@[simp] theorem skipIf_env (c : Bool) : (s.skipIf c).env = s.env := rfl
@[simp] theorem reg_skipIf (c : Bool) (z : RegIx) : (s.skipIf c).reg z = s.reg z := rfl
@[simp] theorem skipIf_pc (c : Bool) : (s.skipIf c).pc = s.pc + (if c then 4#16 else 2#16) := by
  cases c <;> rfl

/-! ### afterDraw -/

@[simp] theorem afterDraw_v : s.afterDraw.v = s.v := rfl
@[simp] theorem afterDraw_i : s.afterDraw.i = s.i := rfl
@[simp] theorem afterDraw_pc : s.afterDraw.pc = s.pc := rfl
@[simp] theorem afterDraw_sp : s.afterDraw.sp = s.sp := rfl
@[simp] theorem afterDraw_stk : s.afterDraw.stk = s.stk := rfl
@[simp] theorem afterDraw_dt : s.afterDraw.dt = s.dt := rfl
@[simp] theorem afterDraw_st : s.afterDraw.st = s.st := rfl
@[simp] theorem afterDraw_mem : s.afterDraw.mem = s.mem := rfl
@[simp] theorem afterDraw_fb : s.afterDraw.fb = s.fb := rfl
@[simp] theorem afterDraw_dirty : s.afterDraw.dirty = s.dirty := rfl
@[simp] theorem afterDraw_status : s.afterDraw.status = s.status := rfl
@[simp] theorem afterDraw_env : s.afterDraw.env = { s.env with rands := s.env.rands.tail, draws := s.env.draws + 1 } := rfl
@[simp] theorem reg_afterDraw (z : RegIx) : s.afterDraw.reg z = s.reg z := rfl

/-! ### afterSample -/

@[simp] theorem afterSample_v : s.afterSample.v = s.v := rfl
@[simp] theorem afterSample_i : s.afterSample.i = s.i := rfl
@[simp] theorem afterSample_pc : s.afterSample.pc = s.pc := rfl
@[simp] theorem afterSample_sp : s.afterSample.sp = s.sp := rfl
@[simp] theorem afterSample_stk : s.afterSample.stk = s.stk := rfl
@[simp] theorem afterSample_dt : s.afterSample.dt = s.dt := rfl
@[simp] theorem afterSample_st : s.afterSample.st = s.st := rfl
@[simp] theorem afterSample_mem : s.afterSample.mem = s.mem := rfl
@[simp] theorem afterSample_fb : s.afterSample.fb = s.fb := rfl
@[simp] theorem afterSample_dirty : s.afterSample.dirty = s.dirty := rfl
@[simp] theorem afterSample_status : s.afterSample.status = s.status := rfl
@[simp] theorem afterSample_env : s.afterSample.env = { s.env with keySamples := s.env.keySamples.tail, samples := s.env.samples + 1 } := rfl
@[simp] theorem reg_afterSample (z : RegIx) : s.afterSample.reg z = s.reg z := rfl

/-! ### markStarted -/

@[simp] theorem markStarted_v : s.markStarted.v = s.v := rfl
@[simp] theorem markStarted_i : s.markStarted.i = s.i := rfl
@[simp] theorem markStarted_pc : s.markStarted.pc = s.pc := rfl
@[simp] theorem markStarted_sp : s.markStarted.sp = s.sp := rfl
@[simp] theorem markStarted_stk : s.markStarted.stk = s.stk := rfl
@[simp] theorem markStarted_dt : s.markStarted.dt = s.dt := rfl
@[simp] theorem markStarted_st : s.markStarted.st = s.st := rfl
@[simp] theorem markStarted_mem : s.markStarted.mem = s.mem := rfl
@[simp] theorem markStarted_fb : s.markStarted.fb = s.fb := rfl
@[simp] theorem markStarted_dirty : s.markStarted.dirty = s.dirty := rfl
@[simp] theorem markStarted_status : s.markStarted.status = s.status := rfl
@[simp] theorem markStarted_env : s.markStarted.env = { s.env with started := true } := rfl
@[simp] theorem reg_markStarted (z : RegIx) : s.markStarted.reg z = s.reg z := rfl

/-! ### setCalls -/

@[simp] theorem setCalls_v (cs : List HostCall) : (s.setCalls cs).v = s.v := rfl
@[simp] theorem setCalls_i (cs : List HostCall) : (s.setCalls cs).i = s.i := rfl
@[simp] theorem setCalls_pc (cs : List HostCall) : (s.setCalls cs).pc = s.pc := rfl
@[simp] theorem setCalls_sp (cs : List HostCall) : (s.setCalls cs).sp = s.sp := rfl
@[simp] theorem setCalls_stk (cs : List HostCall) : (s.setCalls cs).stk = s.stk := rfl
@[simp] theorem setCalls_dt (cs : List HostCall) : (s.setCalls cs).dt = s.dt := rfl
@[simp] theorem setCalls_st (cs : List HostCall) : (s.setCalls cs).st = s.st := rfl
@[simp] theorem setCalls_mem (cs : List HostCall) : (s.setCalls cs).mem = s.mem := rfl
@[simp] theorem setCalls_fb (cs : List HostCall) : (s.setCalls cs).fb = s.fb := rfl
@[simp] theorem setCalls_dirty (cs : List HostCall) : (s.setCalls cs).dirty = s.dirty := rfl
@[simp] theorem setCalls_status (cs : List HostCall) : (s.setCalls cs).status = s.status := rfl
@[simp] theorem setCalls_env (cs : List HostCall) : (s.setCalls cs).env = { s.env with calls := cs } := rfl
@[simp] theorem reg_setCalls (cs : List HostCall) (z : RegIx) : (s.setCalls cs).reg z = s.reg z := rfl

/-! ### Reading a register after a write -/

@[simp] theorem reg_setReg (x z : RegIx) (b : Byte) :
    (s.setReg x b).reg z = if z = x then b else s.reg z := by
  simp only [reg, setReg, Vector.getElem_set, Fin.ext_iff, eq_comm]

@[simp] theorem reg_setRegFlag (x z : RegIx) (r : Byte) (f : Bool) :
    (s.setRegFlag x r f).reg z = if z = 15 then flagByte f else if z = x then r else s.reg z := by
  simp [setRegFlag]

@[simp] theorem reg_setRegs (w : Vector Byte Config.numRegs) (z : RegIx) : (s.setRegs w).reg z = w[z.val] := rfl

theorem reg_loadedRegs (x z : RegIx) (base : Nat) :
    (s.setRegs (s.loadedRegs x base)).reg z = if z ≤ x then s.mem.read (base + z.val) else s.reg z := by
  rw [reg_setRegs]
  simp only [loadedRegs, Vector.getElem_ofFn, Fin.le_def, reg]

/-! ### The widths of the registers as bounds -/

theorem reg_lt (x : RegIx) : (s.reg x).toNat < 256 := (s.reg x).isLt
theorem i_lt : s.i.toNat < 65536 := s.i.isLt
theorem pc_lt : s.pc.toNat < 65536 := s.pc.isLt
theorem dt_lt : s.dt.toNat < 256 := s.dt.isLt
theorem st_lt : s.st.toNat < 256 := s.st.isLt

/-- Two states are equal when they agree on every register and every other field. -/
theorem ext_reg {s t : State} (hreg : ∀ z, s.reg z = t.reg z) (hi : s.i = t.i) (hpc : s.pc = t.pc)
    (hsp : s.sp = t.sp) (hstk : s.stk = t.stk) (hdt : s.dt = t.dt) (hst : s.st = t.st) (hmem : s.mem = t.mem)
    (hfb : s.fb = t.fb) (hdirty : s.dirty = t.dirty) (hstatus : s.status = t.status) (henv : s.env = t.env) :
    s = t := by
  have hv : s.v = t.v := Vector.ext fun k hk => hreg ⟨k, hk⟩
  cases s; cases t; simp_all

end Sys2Proof.Machine.State
end

