-- ==== Sys2Proof/Laws/Memory.lean ====
section
/-! SUPPORT. The laws of memory: a read after a write, the canonical form, and that it is canonical. -/

namespace Sys2Proof.Machine.Memory

/-! ### Reading after a write -/

theorem read_eq_reset_of_forall_lt {m : Memory} {a : Nat} (h : ∀ c ∈ m, a < c.1) :
    m.read a = Config.resetByte a := by
  induction m with
  | nil => rfl
  | cons c rest ih =>
    obtain ⟨b, w⟩ := c
    have hb : a < b := h (b, w) (by simp)
    simp only [read, if_neg (Nat.ne_of_lt hb)]
    exact ih fun c hc => h c (by simp [hc])

theorem read_insert (m : Memory) (a : Nat) (x : Byte) (d : Nat) :
    (m.insert a x).read d = if d = a then x else m.read d := by
  induction m with
  | nil => simp [insert, read]
  | cons c rest ih =>
    obtain ⟨b, w⟩ := c
    simp only [insert]
    split
    · simp only [read]
    · split
      · subst_vars; simp only [read]; split <;> rfl
      · rename_i hab
        simp only [read, ih]
        split
        · next h => rw [if_neg (by omega)]
        · rfl

theorem read_erase {m : Memory} (hwf : m.wf) (a d : Nat) :
    (m.erase a).read d = if d = a then Config.resetByte a else m.read d := by
  induction m with
  | nil => simp only [erase, read]; split <;> simp_all
  | cons c rest ih =>
    obtain ⟨b, w⟩ := c
    have hp := List.pairwise_cons.mp hwf.1
    have hrest : Memory.wf rest := ⟨hp.2, fun c hc => hwf.2 c (by simp [hc])⟩
    simp only [erase]
    split
    · next hab =>
      subst hab
      by_cases hd : d = a
      · subst hd
        simpa using read_eq_reset_of_forall_lt fun c hc => hp.1 c hc
      · simp [read, hd]
    · next hab =>
      simp only [read, ih hrest]
      split
      · next h => rw [if_neg (by omega)]
      · rfl

/-- A read after a write: the byte written at its address, every other byte as before. -/
theorem read_write {m : Memory} (hwf : m.wf) (a : Nat) (x : Byte) (d : Nat) :
    (m.write a x).read d = if d = a then x else m.read d := by
  unfold write
  split
  · next h => rw [read_erase hwf, h]
  · exact read_insert m a x d

/-! ### The canonical form is kept -/

theorem mem_insert {m : Memory} {a : Nat} {x : Byte} {c : Host.Cell} (h : c ∈ m.insert a x) :
    c = (a, x) ∨ c ∈ m := by
  induction m with
  | nil => simpa [insert] using h
  | cons e rest ih =>
    obtain ⟨b, w⟩ := e
    simp only [insert] at h
    split at h
    · simpa using h
    · split at h
      · simp only [List.mem_cons] at h ⊢; exact h.imp id .inr
      · simp only [List.mem_cons] at h ⊢
        rcases h with h | h
        · exact .inr (.inl h)
        · rcases ih h with h | h
          · exact .inl h
          · exact .inr (.inr h)

theorem mem_erase {m : Memory} {a : Nat} {c : Host.Cell} (h : c ∈ m.erase a) : c ∈ m := by
  induction m with
  | nil => simp [erase] at h
  | cons e rest ih =>
    obtain ⟨b, w⟩ := e
    simp only [erase] at h
    split at h
    · simp [h]
    · simp only [List.mem_cons] at h ⊢
      exact h.imp id ih

theorem pairwise_insert {m : Memory} (h : m.Pairwise fun c d => c.1 < d.1) (a : Nat) (x : Byte) :
    (m.insert a x).Pairwise fun c d => c.1 < d.1 := by
  induction m with
  | nil => simp [insert]
  | cons e rest ih =>
    obtain ⟨b, w⟩ := e
    have hp := List.pairwise_cons.mp h
    simp only [insert]
    split
    · next hab =>
      refine List.pairwise_cons.mpr ⟨fun c hc => ?_, h⟩
      rcases List.mem_cons.mp hc with rfl | hc
      · exact hab
      · exact Nat.lt_trans hab (hp.1 c hc)
    · split
      · next hab => subst hab; exact List.pairwise_cons.mpr ⟨fun c hc => hp.1 c hc, hp.2⟩
      · refine List.pairwise_cons.mpr ⟨fun c hc => ?_, ih hp.2⟩
        rcases mem_insert hc with rfl | hc
        · show b < a; omega
        · exact hp.1 c hc

theorem pairwise_erase {m : Memory} (h : m.Pairwise fun c d => c.1 < d.1) (a : Nat) :
    (m.erase a).Pairwise fun c d => c.1 < d.1 := by
  induction m with
  | nil => simp [erase]
  | cons e rest ih =>
    obtain ⟨b, w⟩ := e
    have hp := List.pairwise_cons.mp h
    simp only [erase]
    split
    · exact hp.2
    · exact List.pairwise_cons.mpr ⟨fun c hc => hp.1 c (mem_erase hc), ih hp.2⟩

/-- Memory with nothing listed, as Reset leaves it, is in the canonical form. -/
theorem wf_nil : Memory.wf [] := by simp [wf]

/-- Storing a byte inside memory keeps the canonical form. -/
theorem wf_write {m : Memory} (hwf : m.wf) {a : Nat} (ha : a < Config.memSize) (x : Byte) : (m.write a x).wf := by
  unfold write
  split
  · exact ⟨pairwise_erase hwf.1 a, fun c hc => hwf.2 c (mem_erase hc)⟩
  · next hx =>
    refine ⟨pairwise_insert hwf.1 a x, fun c hc => ?_⟩
    rcases mem_insert hc with rfl | hc
    · exact ⟨ha, hx⟩
    · exact hwf.2 c hc

/-! ### Consecutive bytes -/

/-- Storing consecutive bytes inside memory keeps the canonical form. -/
theorem wf_writeBytes {m : Memory} (hwf : m.wf) {a : Nat} {xs : List Byte}
    (h : a + xs.length ≤ Config.memSize) : (m.writeBytes a xs).wf := by
  induction xs generalizing m a with
  | nil => exact hwf
  | cons x xs ih =>
    simp only [List.length_cons] at h
    exact ih (wf_write hwf (by omega) x) (by omega)

/-- A read after storing consecutive bytes: the stored byte inside the range, every other byte as before. -/
theorem read_writeBytes {m : Memory} (hwf : m.wf) {a : Nat} {xs : List Byte}
    (h : a + xs.length ≤ Config.memSize) (d : Nat) :
    (m.writeBytes a xs).read d =
      if a ≤ d ∧ d < a + xs.length then xs.getD (d - a) 0 else m.read d := by
  induction xs generalizing m a with
  | nil => rw [if_neg (by simp only [List.length_nil]; omega)]; rfl
  | cons x xs ih =>
    simp only [List.length_cons] at h
    simp only [writeBytes, List.length_cons]
    rw [ih (wf_write hwf (by omega) x) (by omega), read_write hwf]
    by_cases h1 : a + 1 ≤ d ∧ d < a + 1 + xs.length
    · have : d - a = (d - (a + 1)) + 1 := by omega
      rw [if_pos h1, if_pos (by omega), this, List.getD_cons_succ]
    · rw [if_neg h1]
      by_cases h2 : d = a
      · subst h2; simp
      · rw [if_neg h2, if_neg (by omega)]

@[simp] theorem length_readBytes (m : Memory) (a len : Nat) : (m.readBytes a len).length = len := by
  simp [readBytes]

theorem getD_readBytes (m : Memory) (a len k : Nat) (h : k < len) :
    (m.readBytes a len).getD k 0 = m.read (a + k) := by
  simp [readBytes, List.getD_eq_getElem?_getD, List.getElem?_range h]

/-! ### Equal memories are equal data -/

theorem read_of_mem {m : Memory} (hp : m.Pairwise fun c d => c.1 < d.1) {c : Host.Cell} (hc : c ∈ m) :
    m.read c.1 = c.2 := by
  induction m with
  | nil => simp at hc
  | cons e rest ih =>
    obtain ⟨b, w⟩ := e
    have hp' := List.pairwise_cons.mp hp
    rcases List.mem_cons.mp hc with rfl | hc
    · simp [read]
    · have : b < c.1 := hp'.1 c hc
      rw [read, if_neg (by omega)]
      exact ih hp'.2 hc

end Sys2Proof.Machine.Memory
end

