-- ==== Sys2Proof/Laws/Ops.lean ====
section
/-! SUPPORT. One lemma for each shared operation: everything it can do. -/

namespace Sys2Proof.Machine

/-! ### Flags and operands as numbers -/

@[simp] theorem flagByte_true : flagByte true = 1 := rfl
@[simp] theorem flagByte_false : flagByte false = 0 := rfl

theorem sum8_toNat (a b : Byte) : (sum8 a b).toNat = (a.toNat + b.toNat) % 256 := by simp [sum8]

theorem floorSub_toNat (a b : Byte) : (floorSub a b).toNat = a.toNat - b.toNat := by
  have := a.isLt
  simp only [floorSub, BitVec.toNat_ofNat]
  exact Nat.mod_eq_of_lt (by omega)

theorem halve_toNat (a : Byte) : (halve a).toNat = a.toNat / 2 := by
  simp [halve, Nat.shiftRight_eq_div_pow]

theorem double_toNat (a : Byte) : (double a).toNat = a.toNat * 2 % 256 := by
  simp [double, Nat.shiftLeft_eq]

theorem shiftedOutRight_eq (a : Byte) : shiftedOutRight a = decide (a.toNat % 2 = 1) := by
  simp [shiftedOutRight, BitVec.getLsbD, Nat.testBit_zero]

theorem shiftedOutLeft_eq (a : Byte) : shiftedOutLeft a = decide (128 ≤ a.toNat) := by
  have h := a.isLt
  simp only [shiftedOutLeft, BitVec.getLsbD, Nat.testBit_eq_decide_div_mod_eq, decide_eq_decide]
  omega

theorem zextNNN_toNat (nnn : Addr12) : (zextNNN nnn).toNat = nnn.toNat := by
  have := nnn.isLt
  simp only [zextNNN, BitVec.truncate_eq_setWidth, BitVec.toNat_setWidth]
  exact Nat.mod_eq_of_lt (by omega)

theorem zextByte_toNat (b : Byte) : (zextByte b).toNat = b.toNat := by
  have := b.isLt
  simp only [zextByte, BitVec.truncate_eq_setWidth, BitVec.toNat_setWidth]
  exact Nat.mod_eq_of_lt (by omega)

theorem offsetTarget_toNat (nnn : Addr12) (b : Byte) : (offsetTarget nnn b).toNat = nnn.toNat + b.toNat := by
  have := nnn.isLt
  have := b.isLt
  simp only [offsetTarget, BitVec.toNat_add, zextNNN_toNat, zextByte_toNat]
  exact Nat.mod_eq_of_lt (by omega)

theorem addToI_toNat (i : Word) (b : Byte) : (addToI i b).toNat = (i.toNat + b.toNat) % 65536 := by simp [addToI]

theorem glyphAddress_toNat (b : Byte) : (glyphAddress b).toNat = b.toNat * 5 := by
  have := b.isLt
  simp only [glyphAddress, BitVec.toNat_ofNat, Config.fontBase, Config.glyphBytes, Nat.zero_add]
  exact Nat.mod_eq_of_lt (by omega)

@[simp] theorem length_bcdDigits (b : Byte) : (bcdDigits b).length = 3 := rfl

@[simp] theorem length_regsUpTo (s : State) (x : RegIx) : (s.regsUpTo x).length = x.val + 1 := by
  have := x.isLt
  simp only [State.regsUpTo, List.length_take, Vector.length_toList, Config.numRegs]
  omega

theorem getD_regsUpTo (s : State) (x : RegIx) (k : Nat) (h : k ≤ x.val) :
    (s.regsUpTo x).getD k 0 = s.reg ⟨k, by omega⟩ := by
  have h16 : k < 16 := by omega
  simp [State.regsUpTo, State.reg, List.getD_eq_getElem?_getD, Nat.lt_succ_of_le h, h16]

/-- An access stays inside memory when it touches nothing or its last address is at most 0xFFF. -/
theorem touchesOutside_eq_false {base len : Nat} :
    touchesOutside base len = false ↔ len = 0 ∨ base + len ≤ Config.memSize := by
  simp only [touchesOutside, decide_eq_false_iff_not, Config.maxAddr, Config.memSize]
  omega

theorem touchesOutside_eq_true {base len : Nat} :
    touchesOutside base len = true ↔ 0 < len ∧ Config.memSize < base + len := by
  simp only [touchesOutside, decide_eq_true_eq, Config.maxAddr, Config.memSize]
  omega

theorem noSuchKey_eq_false {b : Byte} : noSuchKey b = false ↔ b.toNat < 16 := by simp [noSuchKey]
theorem noSuchKey_eq_true {b : Byte} : noSuchKey b = true ↔ 16 ≤ b.toNat := by simp [noSuchKey]

/-! ### The stack -/

theorem push?_of_lt {s : State} (h : s.sp.val < 16) (w : Word) :
    s.push? w = some { s with stk := s.stk.set s.sp.val w h, sp := ⟨s.sp.val + 1, by simp; omega⟩ } := by
  simp only [State.push?, Config.stackDepth, dif_pos h]

theorem push?_of_full {s : State} (h : s.sp.val = 16) (w : Word) : s.push? w = none := by
  simp [State.push?, h]

theorem pop?_of_pos {s : State} (h : 0 < s.sp.val) :
    s.pop? = some (s.stk[s.sp.val - 1]'(Nat.lt_of_lt_of_le (Nat.sub_lt h Nat.one_pos) (Nat.le_of_lt_succ s.sp.isLt)),
      { s with sp := ⟨s.sp.val - 1, Nat.lt_of_le_of_lt (Nat.sub_le _ _) s.sp.isLt⟩ }) := by
  simp only [State.pop?, dif_pos h]

theorem pop?_of_empty {s : State} (h : s.sp.val = 0) : s.pop? = none := by
  simp [State.pop?, h]

/-! ### Taking a fatal condition -/

/-- Taking a fatal condition answers the state with the record in its status and nothing else changed. -/
theorem raise_eq (k : FatalKind) (op : Option Word) (s : State) :
    raise k op s = .next (s.setStatus (.fatal k s.pc op)) := rfl

theorem raiseBy_eq (k : FatalKind) (ins : Instr) (s : State) :
    raiseBy k ins s = .next (s.setStatus (.fatal k s.pc (some (encode ins)))) := rfl

/-! ### Fetching -/

theorem canFetch_iff {pc : Word} : canFetch pc = true ↔ pc.toNat < 0xFFF := by
  simp only [canFetch, decide_eq_true_eq, Config.maxAddr]; omega

theorem fetch_of_lt {s : State} (h : s.pc.toNat < 0xFFF) : fetch s = some (s.mem.readWord s.pc.toNat) := by
  simp [fetch, canFetch_iff.mpr h]

theorem fetch_of_ge {s : State} (h : 0xFFF ≤ s.pc.toNat) : fetch s = none := by
  have : canFetch s.pc = false := by simp [canFetch]; omega
  simp [fetch, this]

/-- The fetch looks at nothing but PC and memory. -/
theorem fetch_congr {s t : State} (hpc : t.pc = s.pc) (hmem : t.mem = s.mem) : fetch t = fetch s := by
  simp only [fetch, hpc, hmem]

/-! ### The Step event -/

/-- Everything a Step can do, by status, fetch and decode. -/
theorem stepEvent_cases (s : State) :
    (s.status ≠ .running ∧ stepEvent s = .next s) ∨
    (s.status = .running ∧
      ((fetch s = none ∧ stepEvent s = raise .outOfBounds none s.markStarted) ∨
       (∃ op r, fetch s = some op ∧ decode op = .error r ∧
          stepEvent s = raise .decodeError (some op) s.markStarted) ∨
       (∃ op i, fetch s = some op ∧ decode op = .ok i ∧ stepEvent s = exec i s.markStarted))) := by
  have hf : fetch s.markStarted = fetch s := rfl
  cases hs : s.status with
  | fatal k p o => exact .inl ⟨by simp, by simp [stepEvent, hs]⟩
  | awaitingKey x => exact .inl ⟨by simp, by simp [stepEvent, hs]⟩
  | running =>
    refine .inr ⟨rfl, ?_⟩
    simp only [stepEvent, hs, runInstruction, hf]
    cases hfe : fetch s with
    | none => exact .inl ⟨rfl, rfl⟩
    | some op =>
      cases hd : decode op with
      | error r => exact .inr (.inl ⟨op, r, rfl, hd, by simp [hd]⟩)
      | ok i => exact .inr (.inr ⟨op, i, rfl, hd, by simp [hd]⟩)

end Sys2Proof.Machine
end

