-- ==== Sys2Proof/Laws/Exec.lean ====
section
/-! SUPPORT. What the meanings with a condition answer, once for each side of the condition. Every other
instruction answers its next state by definition. -/

namespace Sys2Proof.Machine

/-! ### The stack -/

theorem exec_ret_of_pos {s : State} (h : 0 < s.sp.val) :
    exec .ret s = .next { s with
      sp := ⟨s.sp.val - 1, Nat.lt_of_le_of_lt (Nat.sub_le _ _) s.sp.isLt⟩
      pc := s.stk[s.sp.val - 1]'(Nat.lt_of_lt_of_le (Nat.sub_lt h Nat.one_pos) (Nat.le_of_lt_succ s.sp.isLt)) } := by
  simp only [exec, execRet, pop?_of_pos h]; rfl

theorem exec_ret_of_empty {s : State} (h : s.sp.val = 0) : exec .ret s = raiseBy .stackUnderflow .ret s := by
  simp only [exec, execRet, pop?_of_empty h]

theorem exec_call_of_lt {s : State} (h : s.sp.val < 16) (nnn : Addr12) :
    exec (.call nnn) s = .next { s with
      stk := s.stk.set s.sp.val (s.pc + 2#16) h
      sp := ⟨s.sp.val + 1, Nat.succ_lt_succ h⟩
      pc := zextNNN nnn } := by
  simp only [exec, execCall, push?_of_lt h]; rfl

theorem exec_call_of_full {s : State} (h : s.sp.val = 16) (nnn : Addr12) :
    exec (.call nnn) s = raiseBy .stackOverflow (.call nnn) s := by
  simp only [exec, execCall, push?_of_full h]

/-- The stack pointer is below 16 or is 16. -/
theorem sp_lt_or_full (s : State) : s.sp.val < 16 ∨ s.sp.val = 16 := by
  have : s.sp.val < 17 := s.sp.isLt
  omega

/-! ### Data accesses through I -/

theorem exec_drw_outside {s : State} {n : Fin 16} (h : touchesOutside s.i.toNat n.val = true) (x y : RegIx) :
    exec (.drw x y n) s = raiseBy .outOfBounds (.drw x y n) s := by
  simp only [exec, execDrw, h]; rfl

theorem exec_drw_inside {s : State} {n : Fin 16} (h : touchesOutside s.i.toNat n.val = false) (x y : RegIx) :
    exec (.drw x y n) s = .next ((s.setFb
        (drawSprite s.fb (s.reg x).toNat (s.reg y).toNat (s.mem.readBytes s.i.toNat n.val)).1).setReg 15
      (flagByte (drawSprite s.fb (s.reg x).toNat (s.reg y).toNat (s.mem.readBytes s.i.toNat n.val)).2)).advance := by
  simp only [exec, execDrw, h]; rfl

theorem exec_ldBVx_outside {s : State} (h : touchesOutside s.i.toNat 3 = true) (x : RegIx) :
    exec (.ldBVx x) s = raiseBy .outOfBounds (.ldBVx x) s := by
  simp only [exec, execLdBVx, h]; rfl

theorem exec_ldBVx_inside {s : State} (h : touchesOutside s.i.toNat 3 = false) (x : RegIx) :
    exec (.ldBVx x) s = .next (s.setMem (s.mem.writeBytes s.i.toNat (bcdDigits (s.reg x)))).advance := by
  simp only [exec, execLdBVx, h]; rfl

theorem exec_ldMemVx_outside {s : State} {x : RegIx} (h : touchesOutside s.i.toNat (x.val + 1) = true) :
    exec (.ldMemVx x) s = raiseBy .outOfBounds (.ldMemVx x) s := by
  simp only [exec, execLdMemVx, h]; rfl

theorem exec_ldMemVx_inside {s : State} {x : RegIx} (h : touchesOutside s.i.toNat (x.val + 1) = false) :
    exec (.ldMemVx x) s = .next (s.setMem (s.mem.writeBytes s.i.toNat (s.regsUpTo x))).advance := by
  simp only [exec, execLdMemVx, h]; rfl

theorem exec_ldVxMem_outside {s : State} {x : RegIx} (h : touchesOutside s.i.toNat (x.val + 1) = true) :
    exec (.ldVxMem x) s = raiseBy .outOfBounds (.ldVxMem x) s := by
  simp only [exec, execLdVxMem, h]; rfl

theorem exec_ldVxMem_inside {s : State} {x : RegIx} (h : touchesOutside s.i.toNat (x.val + 1) = false) :
    exec (.ldVxMem x) s = .next (s.setRegs (s.loadedRegs x s.i.toNat)).advance := by
  simp only [exec, execLdVxMem, h]; rfl

/-! ### Keys -/

theorem exec_skp_noKey {s : State} {x : RegIx} (h : noSuchKey (s.reg x) = true) :
    exec (.skp x) s = raiseBy .outOfBounds (.skp x) s := by
  simp only [exec, execSkp, h]; rfl

theorem exec_skp_key {s : State} {x : RegIx} (h : noSuchKey (s.reg x) = false) :
    exec (.skp x) s = .next (s.afterSample.skipIf (s.keyDown (s.reg x).toNat)) := by
  simp only [exec, execSkp, h]; rfl

theorem exec_sknp_noKey {s : State} {x : RegIx} (h : noSuchKey (s.reg x) = true) :
    exec (.sknp x) s = raiseBy .outOfBounds (.sknp x) s := by
  simp only [exec, execSknp, h]; rfl

theorem exec_sknp_key {s : State} {x : RegIx} (h : noSuchKey (s.reg x) = false) :
    exec (.sknp x) s = .next (s.afterSample.skipIf (!s.keyDown (s.reg x).toNat)) := by
  simp only [exec, execSknp, h]; rfl

/-! ### Loading -/

theorem loadReport_ok {bytes : List Byte} : loadReport bytes = .ok ↔ bytes.length ≤ 3584 := by
  by_cases h : 3584 < bytes.length <;> simp [loadReport, h] <;> omega

theorem loadReport_loadError {bytes : List Byte} : loadReport bytes = .loadError ↔ 3584 < bytes.length := by
  by_cases h : 3584 < bytes.length <;> simp [loadReport, h]

/-- Everything a Load can do: it is refused after a Step, changes nothing when too long, else writes the ROM. -/
theorem loadEvent_cases (bytes : List Byte) (s : State) :
    (s.env.started = true ∧ loadEvent bytes s = .refused .loadAfterStep) ∨
    (s.env.started = false ∧ 3584 < bytes.length ∧ loadEvent bytes s = .next s) ∨
    (s.env.started = false ∧ bytes.length ≤ 3584 ∧
      loadEvent bytes s = .next (s.setMem (s.mem.writeBytes 0x200 bytes))) := by
  cases hs : s.env.started with
  | true => exact .inl ⟨rfl, by simp [loadEvent, hs]⟩
  | false =>
    by_cases h : 3584 < bytes.length
    · exact .inr (.inl ⟨rfl, h, by simp [loadEvent, hs, loadReport_loadError.mpr h]⟩)
    · exact .inr (.inr ⟨rfl, by omega, by simp [loadEvent, hs, loadReport_ok.mpr (Nat.le_of_not_lt h)]⟩)

/-! ### The step -/

theorem step_of_noCalls {s : State} (h : s.env.calls = []) : step s = stepEvent s := by
  simp only [step, nextEvent, h]

theorem step_of_call {s : State} {c : HostCall} {rest : List HostCall} (h : s.env.calls = c :: rest) :
    step s = hostCall c (s.setCalls rest) := by
  simp only [step, nextEvent, h]

end Sys2Proof.Machine
end

