-- ==== Sys2Proof/Laws/PerInstr.lean ====
section
/-! SUPPORT. Statements made instruction by instruction. -/

namespace Sys2Proof

/-- The family an instruction belongs to: the first hex digit of its pattern (30_encoding section 3). -/
def Instr.family : Instr → BitVec 4
  | .sys _ | .cls | .ret => 0x0
  | .jp _ => 0x1
  | .call _ => 0x2
  | .seImm _ _ => 0x3
  | .sneImm _ _ => 0x4
  | .seReg _ _ => 0x5
  | .ldImm _ _ => 0x6
  | .addImm _ _ => 0x7
  | .ldReg _ _ | .or _ _ | .and _ _ | .xor _ _ | .addReg _ _ | .sub _ _ | .shr _ _ | .subn _ _ | .shl _ _ => 0x8
  | .sneReg _ _ => 0x9
  | .ldI _ => 0xA
  | .jpV0 _ => 0xB
  | .rnd _ _ => 0xC
  | .drw _ _ _ => 0xD
  | .skp _ | .sknp _ => 0xE
  | .ldVxDt _ | .ldVxK _ | .ldDtVx _ | .ldStVx _ | .addI _ | .ldFVx _ | .ldBVx _ | .ldMemVx _ | .ldVxMem _ => 0xF

namespace Laws.EncodeFamily

/-- The top four bits of an instruction's word are its family (30_encoding R71, R73). -/
def Statement (i : Instr) : Prop := fieldF (encode i) = i.family

theorem sys (nnn : Addr12) : Statement (.sys nnn) := by simp [Statement, encode, Instr.family]
theorem cls : Statement .cls := by simp only [Statement]; decide
theorem ret : Statement .ret := by simp only [Statement]; decide
theorem jp (nnn : Addr12) : Statement (.jp nnn) := by simp [Statement, encode, Instr.family]
theorem call (nnn : Addr12) : Statement (.call nnn) := by simp [Statement, encode, Instr.family]
theorem seImm (x : RegIx) (nn : Byte) : Statement (.seImm x nn) := by simp [Statement, encode, Instr.family]
theorem sneImm (x : RegIx) (nn : Byte) : Statement (.sneImm x nn) := by simp [Statement, encode, Instr.family]
theorem seReg (x y : RegIx) : Statement (.seReg x y) := by simp [Statement, encode, Instr.family]
theorem ldImm (x : RegIx) (nn : Byte) : Statement (.ldImm x nn) := by simp [Statement, encode, Instr.family]
theorem addImm (x : RegIx) (nn : Byte) : Statement (.addImm x nn) := by simp [Statement, encode, Instr.family]
theorem ldReg (x y : RegIx) : Statement (.ldReg x y) := by simp [Statement, encode, Instr.family]
theorem or (x y : RegIx) : Statement (.or x y) := by simp [Statement, encode, Instr.family]
theorem and (x y : RegIx) : Statement (.and x y) := by simp [Statement, encode, Instr.family]
theorem xor (x y : RegIx) : Statement (.xor x y) := by simp [Statement, encode, Instr.family]
theorem addReg (x y : RegIx) : Statement (.addReg x y) := by simp [Statement, encode, Instr.family]
theorem sub (x y : RegIx) : Statement (.sub x y) := by simp [Statement, encode, Instr.family]
theorem shr (x y : RegIx) : Statement (.shr x y) := by simp [Statement, encode, Instr.family]
theorem subn (x y : RegIx) : Statement (.subn x y) := by simp [Statement, encode, Instr.family]
theorem shl (x y : RegIx) : Statement (.shl x y) := by simp [Statement, encode, Instr.family]
theorem sneReg (x y : RegIx) : Statement (.sneReg x y) := by simp [Statement, encode, Instr.family]
theorem ldI (nnn : Addr12) : Statement (.ldI nnn) := by simp [Statement, encode, Instr.family]
theorem jpV0 (nnn : Addr12) : Statement (.jpV0 nnn) := by simp [Statement, encode, Instr.family]
theorem rnd (x : RegIx) (nn : Byte) : Statement (.rnd x nn) := by simp [Statement, encode, Instr.family]
theorem drw (x y : RegIx) (n : Fin 16) : Statement (.drw x y n) := by simp [Statement, encode, Instr.family]
theorem skp (x : RegIx) : Statement (.skp x) := by simp [Statement, encode, Instr.family]
theorem sknp (x : RegIx) : Statement (.sknp x) := by simp [Statement, encode, Instr.family]
theorem ldVxDt (x : RegIx) : Statement (.ldVxDt x) := by simp [Statement, encode, Instr.family]
theorem ldVxK (x : RegIx) : Statement (.ldVxK x) := by simp [Statement, encode, Instr.family]
theorem ldDtVx (x : RegIx) : Statement (.ldDtVx x) := by simp [Statement, encode, Instr.family]
theorem ldStVx (x : RegIx) : Statement (.ldStVx x) := by simp [Statement, encode, Instr.family]
theorem addI (x : RegIx) : Statement (.addI x) := by simp [Statement, encode, Instr.family]
theorem ldFVx (x : RegIx) : Statement (.ldFVx x) := by simp [Statement, encode, Instr.family]
theorem ldBVx (x : RegIx) : Statement (.ldBVx x) := by simp [Statement, encode, Instr.family]
theorem ldMemVx (x : RegIx) : Statement (.ldMemVx x) := by simp [Statement, encode, Instr.family]
theorem ldVxMem (x : RegIx) : Statement (.ldVxMem x) := by simp [Statement, encode, Instr.family]

end Laws.EncodeFamily

end Sys2Proof
end

