-- ==== Sys2Proof/Tests/Slice0.lean ====
section
/-! SUPPORT. The model's own tests and the witnesses of the statements. Expected results come from the rows of
95_test_vectors named in the comments; none was read off the model. -/

namespace Sys2Proof.Tests

open Sys2Proof.Machine Sys2Proof.Claims

/-! ### Well-formedness: the two terms the check refuses -/

theorem test_wf_refuses_the_literal_00E0 : (Instr.sys 0x0E0).wellFormed = false := by decide
theorem test_wf_refuses_the_literal_00EE : (Instr.sys 0x0EE).wellFormed = false := by decide
theorem test_wf_accepts_neighbours :
    (Instr.sys 0x0E1).wellFormed = true ∧ (Instr.sys 0x1EE).wellFormed = true := by decide

/-! ### Decoding: words written out bit by bit from the map of 30_encoding section 3 -/

theorem test_decode_family0 :
    decode 0b0000000011100000#16 = .ok .cls ∧ decode 0b0000000011101110#16 = .ok .ret ∧
    decode 0b0000000111101110#16 = .ok (.sys 0x1EE) ∧ decode 0b0000000000000000#16 = .ok (.sys 0) := by decide
theorem test_decode_jumps :
    decode 0b0001001000110100#16 = .ok (.jp 0x234) ∧ decode 0b0010001100000000#16 = .ok (.call 0x300) ∧
    decode 0b1011111111111111#16 = .ok (.jpV0 0xFFF) := by decide
theorem test_decode_skips :
    decode 0b0011101000000101#16 = .ok (.seImm 10 5) ∧ decode 0b0100101000000101#16 = .ok (.sneImm 10 5) ∧
    decode 0b0101000100100000#16 = .ok (.seReg 1 2) ∧ decode 0b1001000100100000#16 = .ok (.sneReg 1 2) := by decide
theorem test_decode_immediates :
    decode 0b0110101000101011#16 = .ok (.ldImm 10 0x2B) ∧ decode 0b0111000000000011#16 = .ok (.addImm 0 3) ∧
    decode 0b1100000111110000#16 = .ok (.rnd 1 0xF0) := by decide
theorem test_decode_family8_low :
    decode 0b1000111011110000#16 = .ok (.ldReg 14 15) ∧ decode 0b1000000100100001#16 = .ok (.or 1 2) ∧
    decode 0b1000000100100010#16 = .ok (.and 1 2) ∧ decode 0b1000000100100011#16 = .ok (.xor 1 2) ∧
    decode 0b1000101010110100#16 = .ok (.addReg 10 11) := by decide
theorem test_decode_family8_high :
    decode 0b1000101010110101#16 = .ok (.sub 10 11) ∧ decode 0b1000000110100110#16 = .ok (.shr 1 10) ∧
    decode 0b1000000100100111#16 = .ok (.subn 1 2) ∧ decode 0b1000000100101110#16 = .ok (.shl 1 2) := by decide
theorem test_decode_address_and_draw :
    decode 0b1010001100000000#16 = .ok (.ldI 0x300) ∧ decode 0b1101000100100101#16 = .ok (.drw 1 2 5) := by decide
theorem test_decode_familyE :
    decode 0b1110010110011110#16 = .ok (.skp 5) ∧ decode 0b1110010110100001#16 = .ok (.sknp 5) := by decide
theorem test_decode_familyF_timers :
    decode 0b1111000100000111#16 = .ok (.ldVxDt 1) ∧ decode 0b1111001000001010#16 = .ok (.ldVxK 2) ∧
    decode 0b1111000000010101#16 = .ok (.ldDtVx 0) ∧ decode 0b1111001100011000#16 = .ok (.ldStVx 3) := by decide
theorem test_decode_familyF_memory :
    decode 0b1111001000011110#16 = .ok (.addI 2) ∧ decode 0b1111000000101001#16 = .ok (.ldFVx 0) ∧
    decode 0b1111000000110011#16 = .ok (.ldBVx 0) ∧ decode 0b1111001001010101#16 = .ok (.ldMemVx 2) ∧
    decode 0b1111111101100101#16 = .ok (.ldVxMem 15) := by decide
/-- TD8, TD10, TD12 to TD14, TD17, TD20, TD22, TD23. -/
theorem test_decode_refuses :
    decode 0x5121#16 = .error .family5 ∧ decode 0x912F#16 = .error .family9 ∧ decode 0x8128#16 = .error .family8 ∧
    decode 0x812D#16 = .error .family8 ∧ decode 0x812F#16 = .error .family8 ∧ decode 0xE19F#16 = .error .familyE ∧
    decode 0xE11E#16 = .error .familyE ∧ decode 0xF100#16 = .error .familyF ∧ decode 0xF175#16 = .error .familyF := by
  decide
theorem test_decode_tableWord :
    decodeTableWord 16 0x8AB4 = some (.addReg 10 11) ∧ decodeTableWord 16 0xF175 = none := by decide
theorem test_decode_needs_two_bytes : decodeBytes [0x60#8] = .error .tooShort := by decide

/-! ### One step on a small state -/

/-- The start state of 95_test_vectors: reset, with the given registers. -/
def start (regs : List (RegIx × Byte)) : State := regs.foldl (fun s r => s.setReg r.1 r.2) State.reset

/-- The state with I and a run of memory bytes. -/
def withData (s : State) (i : Word) (a : Nat) (bytes : List Byte) : State :=
  (s.setI i).setMem (s.mem.writeBytes a bytes)

/-- What a check finds after one step of the word at PC. -/
def after {α : Type} (s : State) (w : Nat) (look : State → α) : Option α :=
  match step (s.withFetchWord 16 w) with
  | .next t => some (look t)
  | .fault _ => none
  | .refused _ => none

/-- What a check finds after one host event. -/
def afterEvent {α : Type} (s : State) (c : HostCall) (look : State → α) : Option α :=
  match step (s.setCalls [c]) with
  | .next t => some (look t)
  | .fault _ => none
  | .refused _ => none

/-- A register and VF. -/
def regAndFlag (x : RegIx) (t : State) : Nat × Nat := ((t.reg x).toNat, (t.reg 15).toNat)

theorem test_ldImm_TA1 : after (start []) 0x6A2B (fun t => (regAndFlag 10 t, t.pc)) = some ((0x2B, 0), 0x202#16) := by
  decide
theorem test_addImm_TA4 : after (start [(0, 0xFE), (15, 1)]) 0x7003 (regAndFlag 0) = some (0x01, 1) := by decide
theorem test_addImm_TA7 : after (start [(15, 0xFF)]) 0x7F01 (regAndFlag 15) = some (0x00, 0x00) := by decide
theorem test_ldReg_TA10 : after (start [(15, 1), (14, 0x55)]) 0x8EF0 (regAndFlag 14) = some (1, 1) := by decide
theorem test_or_TA12 : after (start [(1, 0xF0), (2, 0x0F), (15, 1)]) 0x8121 (regAndFlag 1) = some (0xFF, 1) := by decide
theorem test_and_TA13 : after (start [(1, 0xF0), (2, 0x3C), (15, 1)]) 0x8122 (regAndFlag 1) = some (0x30, 1) := by decide
theorem test_xor_TA14 : after (start [(1, 0xF0), (2, 0x3C), (15, 1)]) 0x8123 (regAndFlag 1) = some (0xCC, 1) := by decide
theorem test_addReg_TA17 : after (start [(1, 0x80), (2, 0x7F), (15, 1)]) 0x8124 (regAndFlag 1) = some (0xFF, 0) := by
  decide
theorem test_addReg_TA21 : after (start [(15, 0xFF), (1, 2)]) 0x8F14 (regAndFlag 15) = some (1, 1) := by decide
theorem test_sub_TA23 : after (start [(1, 7), (2, 7)]) 0x8125 (regAndFlag 1) = some (0, 1) := by decide
theorem test_sub_TA26 : after (start [(1, 0x10), (2, 0x11), (15, 1)]) 0x8125 (regAndFlag 1) = some (0, 0) := by decide
theorem test_subn_TA31 : after (start [(1, 1), (2, 0), (15, 1)]) 0x8127 (regAndFlag 1) = some (0, 0) := by decide
theorem test_subn_TA32 : after (start [(1, 2), (2, 5)]) 0x8127 (regAndFlag 1) = some (3, 1) := by decide
theorem test_shr_TA38 : after (start [(1, 0x80), (15, 1)]) 0x8106 (regAndFlag 1) = some (0x40, 0) := by decide
theorem test_shr_TA39 : after (start [(1, 5), (10, 0xF0)]) 0x81A6 (regAndFlag 1) = some (2, 1) := by decide
/-- R111: 0x81 doubled is 0x102, of which 0x02 is kept and the top bit moves out; Y is ignored. -/
theorem test_shl_R111 : after (start [(1, 0x81), (10, 0x7F)]) 0x81AE (regAndFlag 1) = some (2, 1) := by decide
/-- R112: a delivered byte 0x3C under the mask 0x0F. -/
theorem test_rnd_R112 :
    after ((start [(1, 0xFF)]).setEnv { Env.reset with rands := [0x3C] }) 0xC10F
      (fun t => (t.reg 1, t.env.rands)) = some (0x0C#8, []) := by decide

/-- S9: the word 0x0123. -/
theorem test_sys_S9 :
    after (start []) 0x0123 (fun t => (t.status, t.pc)) =
      some (.fatal .decodeError 0x200#16 (some 0x0123#16), 0x200#16) := by decide
theorem test_jp_TC3 : after (start []) 0x1FFF (fun t => (t.pc, t.status, fetch t)) =
    some (0xFFF#16, .running, none) := by decide
theorem test_jpV0_TC8 : after (start [(0, 0xFF)]) 0xBFFF (fun t => (t.pc, t.status)) = some (0x10FE#16, .running) := by
  decide
theorem test_call_TC10 :
    after (start []) 0x2300 (fun t => (t.stk[0], t.sp, t.pc)) = some (0x0202#16, 1, 0x300#16) := by decide
theorem test_call_TC12 :
    after (({ State.reset with sp := 16 } : State).setPc 0x250) 0x2300 (fun t => (t.status, t.sp, t.pc)) =
      some (.fatal .stackOverflow 0x250#16 (some 0x2300#16), 16, 0x250#16) := by decide
theorem test_ret_TC14 :
    after ({ State.reset with sp := 16, pc := 0x300, stk := State.reset.stk.set 15 0x0ABC }) 0x00EE
      (fun t => (t.sp, t.pc)) = some (15, 0xABC#16) := by decide
theorem test_ret_TC15 :
    after (start []) 0x00EE (fun t => (t.status, t.sp)) =
      some (.fatal .stackUnderflow 0x200#16 (some 0x00EE#16), 0) := by decide
theorem test_seImm_TC17 : after (start [(10, 5)]) 0x3A05 State.pc = some 0x204#16 := by decide
theorem test_seImm_TC18 : after (start [(10, 6)]) 0x3A05 State.pc = some 0x202#16 := by decide
theorem test_sneImm_TC19 : after (start [(10, 5)]) 0x4A05 State.pc = some 0x202#16 := by decide
theorem test_sneImm_TC20 : after (start []) 0x4A05 State.pc = some 0x204#16 := by decide
theorem test_seReg_TC21 : after (start [(1, 7), (2, 7)]) 0x5120 State.pc = some 0x204#16 := by decide
theorem test_seReg_TC22 : after (start [(1, 7), (2, 8)]) 0x5120 State.pc = some 0x202#16 := by decide
theorem test_sneReg_TC24 : after (start [(1, 7), (2, 8)]) 0x9120 State.pc = some 0x204#16 := by decide
theorem test_sneReg_TC25 : after (start [(1, 7), (2, 7)]) 0x9120 State.pc = some 0x202#16 := by decide
/-- TC6: an instruction at an odd address. -/
theorem test_fetch_odd_TC6 :
    after ((start []).setPc 0x201) 0x6007 (fun t => (t.reg 0, t.pc)) = some (7#8, 0x203#16) := by decide
/-- TC8, the step after it: PC = 0x10FE cannot be fetched from, and no word is recorded. -/
theorem test_fetch_outside_TC8 :
    afterEvent ((start []).setPc 0x10FE) .step State.status = some (.fatal .outOfBounds 0x10FE#16 none) := by decide

theorem test_cls_TV1 :
    after ((start [(15, 1)]).setFb (Framebuffer.flip Framebuffer.blank 63 31) |>.setDirty false) 0x00E0
      (fun t => (t.fbOut 63 31, t.dirty, t.reg 15)) = some (false, true, 1#8) := by decide
/-- TV8: a row clipped at the right edge. -/
theorem test_drw_TV8 :
    after (withData (start [(1, 60)]) 0x300 0x300 [0xFF]) 0xD121
      (fun t => (t.fbOut 59 0, t.fbOut 60 0, t.fbOut 63 0, t.fbOut 0 0, t.fbOut 0 1, t.reg 15)) =
      some (false, true, true, false, false, 0#8) := by decide
/-- TV14: one erased pixel is enough for the flag. -/
theorem test_drw_TV14 :
    after ((withData (start []) 0x300 0x300 [0xC0]).setFb (Framebuffer.flip Framebuffer.blank 0 0)) 0xD121
      (fun t => (t.fbOut 0 0, t.fbOut 1 0, t.reg 15)) = some (false, true, 1#8) := by decide

theorem test_skp_TK5 :
    after ((start [(5, 15)]).setEnv { Env.reset with keySamples := [0x8000] }) 0xE59E State.pc = some 0x204#16 := by
  decide
theorem test_skp_TK6 :
    after (start [(5, 0x10)]) 0xE59E (fun t => (t.status, t.pc)) =
      some (.fatal .outOfBounds 0x200#16 (some 0xE59E#16), 0x200#16) := by decide
theorem test_sknp_TK3 :
    after ((start [(5, 10)]).setEnv { Env.reset with keySamples := [0x0000] }) 0xE5A1 State.pc = some 0x204#16 := by
  decide
theorem test_sknp_TK4 :
    after ((start [(5, 10)]).setEnv { Env.reset with keySamples := [0x0400] }) 0xE5A1 State.pc = some 0x202#16 := by
  decide
theorem test_ldVxK_TK8 :
    after (start []) 0xF20A (fun t => (t.status, t.pc, t.reg 2)) = some (.awaitingKey 2, 0x200#16, 0#8) := by decide
theorem test_keyEvent_TK10 :
    afterEvent ((start []).setStatus (.awaitingKey 2)) (.keyEvent 7) (fun t => (t.reg 2, t.pc, t.status)) =
      some (7#8, 0x202#16, .running) := by decide
theorem test_keyEvent_TK12 :
    afterEvent ((start []).setStatus (.awaitingKey 2)) (.keyEvent 16) (fun t => (t.pc, t.status)) =
      some (0x200#16, .awaitingKey 2) := by decide

theorem test_ldVxDt_TT1 :
    after ((start []).setDt 0x2A) 0xF107 (fun t => (t.reg 1, t.dt)) = some (0x2A#8, 0x2A#8) := by decide
theorem test_ldDtVx_TT2 : after ((start [(0, 0x3C)]).setDt 5) 0xF015 State.dt = some 0x3C#8 := by decide
theorem test_ldStVx_TT4 : after (start [(3, 5)]) 0xF318 (fun t => (t.st, t.tone)) = some (5#8, true) := by decide
theorem test_ldStVx_TT5 : after ((start []).setSt 9) 0xF318 (fun t => (t.st, t.tone)) = some (0#8, false) := by decide
theorem test_timerTick_TT8 :
    afterEvent (((start []).setDt 0xFF).setSt 1) .timerTick (fun t => (t.dt, t.st, t.tone)) =
      some (0xFE#8, 0#8, false) := by decide
theorem test_timerTick_TT7 : afterEvent (start []) .timerTick (fun t => (t.dt, t.st)) = some (0#8, 0#8) := by decide

theorem test_ldI_TM2 : after (start []) 0xAFFF State.i = some 0x0FFF#16 := by decide
theorem test_addI_TM4 :
    after ((start [(2, 1)]).setI 0x0FFF) 0xF21E (fun t => (t.i, t.reg 15, t.status)) =
      some (0x1000#16, 0#8, .running) := by decide
theorem test_addI_TM5 : after ((start [(2, 1)]).setI 0xFFFF) 0xF21E State.i = some 0#16 := by decide
theorem test_ldFVx_TM8 : after (start [(0, 0x10)]) 0xF029 State.i = some 0x0050#16 := by decide
theorem test_ldFVx_TM9 : after (start [(0, 0xFF)]) 0xF029 State.i = some 0x04FB#16 := by decide
theorem test_ldBVx_S5 :
    after ((start [(0, 234)]).setI 0x300) 0xF033 (fun t => t.mem.readBytes 0x300 3) = some [2, 3, 4] := by decide
theorem test_ldBVx_TM16 :
    after (withData (start [(0, 7)]) 0xFFE 0xFFE [0xAA, 0xBB]) 0xF033 (fun t => (t.status, t.mem.readBytes 0xFFE 2)) =
      some (.fatal .outOfBounds 0x200#16 (some 0xF033#16), [0xAA, 0xBB]) := by decide
theorem test_ldMemVx_TM17 :
    after ((start [(0, 0x11), (1, 0x22), (2, 0x33), (3, 0x44)]).setI 0x400) 0xF255
      (fun t => (t.mem.readBytes 0x400 4, t.i)) = some ([0x11, 0x22, 0x33, 0], 0x400#16) := by decide
theorem test_ldMemVx_TM22 :
    after ((start []).setI 0xFFFF) 0xF055 State.status = some (.fatal .outOfBounds 0x200#16 (some 0xF055#16)) := by decide
theorem test_ldVxMem_TM23 :
    after (withData (start [(3, 0x77)]) 0x300 0x300 [2, 3, 4, 5]) 0xF265
      (fun t => (t.reg 0, t.reg 1, t.reg 2, t.reg 3)) = some (2#8, 3#8, 4#8, 0x77#8) := by decide
/-- TM24: glyph 0 of the default FONT. -/
theorem test_ldVxMem_TM24 :
    after (start []) 0xF465 (fun t => (t.reg 0, t.reg 1, t.reg 2, t.reg 3, t.reg 4)) =
      some (0xF0#8, 0x90#8, 0x90#8, 0x90#8, 0xF0#8) := by decide

theorem test_load_TR2 :
    afterEvent (start []) (.load [0x12, 0x00]) (fun t => t.mem.readBytes 0x1FF 4) = some [0, 0x12, 0, 0] := by decide
/-- TR4: 3585 bytes are the LoadError, and the state is as it was. -/
theorem test_load_TR4 (b : Byte) :
    loadReport (List.replicate 3585 b) = .loadError ∧ hostCall (.load (List.replicate 3585 b)) (start []) = .next (start []) := by
  have h : loadReport (List.replicate 3585 b) = .loadError := by rw [loadReport, List.length_replicate]; rfl
  exact ⟨h, by simp only [hostCall, loadEvent, h]; rfl⟩
theorem test_load_after_a_step :
    hostCall (.load []) ((start []).setEnv { Env.reset with started := true }) = .refused .loadAfterStep := rfl
theorem test_reset_TR8 :
    afterEvent ((start [(3, 9)]).setStatus (.fatal .decodeError 0x200 none)) .reset (fun t => (t.status, t.reg 3, t.pc)) =
      some (.running, 0#8, 0x200#16) := by decide
theorem test_report_TO2 : (stepEvent (State.reset.withFetchWord 16 0x00E0) |> fun
    | .next t => stepReport (State.reset.withFetchWord 16 0x00E0) t
    | _ => .awaitingKey) = .frameDirty := by decide
theorem test_memory_stays_canonical : Memory.writeBytes [] 0x4F [0x80, 0x00, 0x07] = [(0x51, 0x07)] := by decide

/-! ### Witnesses: a concrete input that meets the hypotheses of each statement that has some, clause by clause -/

/-- A running state whose PC is the last one that can be fetched from, with the word 6A2B there. -/
def lastFetch : State := ((start []).setPc 0xFFE).setMem [(0xFFE, 0x6A), (0xFFF, 0x2B)]

/-- A state that waits for a key at its FX0A. -/
def waitingState : State :=
  (((start []).setMem [(0x200, 0xF2), (0x201, 0x0A)]).setStatus (.awaitingKey 2)).setEnv { Env.reset with started := true }

/-- A state with I at the given address. -/
def atI (w : Word) : State := (start [(1, 62), (2, 31)]).setI w

/-- A state with a stack of the given depth. -/
def atDepth (n : Fin 17) : State := { State.reset with sp := n }

theorem witness_DecodeOfEncode : (Instr.sys 0x0E1).wellFormed = true ∧ (Instr.drw 15 15 15).wellFormed = true := by decide
theorem witness_EncodeOfDecode : decode 0xFF65#16 = .ok (.ldVxMem 15) := by decide
/-- One word for each row of the map, in its order, every operand digit F where the row allows it. -/
theorem witness_DecodeFollowsOpcodeMap :
    (0x0FFF#16 &&& 0xF000#16 = 0x0000#16 ∧ 0x0FFF#16 ≠ 0x00E0#16 ∧ 0x0FFF#16 ≠ 0x00EE#16) ∧
    (0x1FFF#16 &&& 0xF000#16 = 0x1000#16 ∧ 0x2FFF#16 &&& 0xF000#16 = 0x2000#16) ∧
    (0x3FFF#16 &&& 0xF000#16 = 0x3000#16 ∧ 0x4FFF#16 &&& 0xF000#16 = 0x4000#16) ∧
    (0x5FF0#16 &&& 0xF00F#16 = 0x5000#16 ∧ 0x6FFF#16 &&& 0xF000#16 = 0x6000#16 ∧ 0x7FFF#16 &&& 0xF000#16 = 0x7000#16) ∧
    (0x8FF0#16 &&& 0xF00F#16 = 0x8000#16 ∧ 0x8FF1#16 &&& 0xF00F#16 = 0x8001#16 ∧ 0x8FF2#16 &&& 0xF00F#16 = 0x8002#16) ∧
    (0x8FF3#16 &&& 0xF00F#16 = 0x8003#16 ∧ 0x8FF4#16 &&& 0xF00F#16 = 0x8004#16 ∧ 0x8FF5#16 &&& 0xF00F#16 = 0x8005#16) ∧
    (0x8FF6#16 &&& 0xF00F#16 = 0x8006#16 ∧ 0x8FF7#16 &&& 0xF00F#16 = 0x8007#16 ∧ 0x8FFE#16 &&& 0xF00F#16 = 0x800E#16) ∧
    (0x9FF0#16 &&& 0xF00F#16 = 0x9000#16 ∧ 0xAFFF#16 &&& 0xF000#16 = 0xA000#16 ∧ 0xBFFF#16 &&& 0xF000#16 = 0xB000#16) ∧
    (0xCFFF#16 &&& 0xF000#16 = 0xC000#16 ∧ 0xDFFF#16 &&& 0xF000#16 = 0xD000#16) ∧
    (0xEF9E#16 &&& 0xF0FF#16 = 0xE09E#16 ∧ 0xEFA1#16 &&& 0xF0FF#16 = 0xE0A1#16) ∧
    (0xFF07#16 &&& 0xF0FF#16 = 0xF007#16 ∧ 0xFF0A#16 &&& 0xF0FF#16 = 0xF00A#16 ∧ 0xFF15#16 &&& 0xF0FF#16 = 0xF015#16) ∧
    (0xFF18#16 &&& 0xF0FF#16 = 0xF018#16 ∧ 0xFF1E#16 &&& 0xF0FF#16 = 0xF01E#16 ∧ 0xFF29#16 &&& 0xF0FF#16 = 0xF029#16) ∧
    (0xFF33#16 &&& 0xF0FF#16 = 0xF033#16 ∧ 0xFF55#16 &&& 0xF0FF#16 = 0xF055#16 ∧ 0xFF65#16 &&& 0xF0FF#16 = 0xF065#16) := by
  decide
theorem witness_StepRunsDecodedInstruction :
    lastFetch.env.calls = [] ∧ lastFetch.status = .running ∧ lastFetch.pc.toNat + 1 ≤ 0xFFF ∧
    decodeBytes [lastFetch.mem.read lastFetch.pc.toNat, lastFetch.mem.read (lastFetch.pc.toNat + 1)] =
      .ok (.ldImm 10 0x2B, []) := by decide
theorem witness_FetchOutsideMemoryIsFatal :
    (lastFetch.env.calls = [] ∧ lastFetch.status = .running ∧ lastFetch.pc.toNat < 0xFFF) ∧
    ((lastFetch.setPc 0xFFF).env.calls = [] ∧ (lastFetch.setPc 0xFFF).status = .running ∧
      0xFFF ≤ (lastFetch.setPc 0xFFF).pc.toNat) := by decide
theorem witness_UndecodableWordIsFatal :
    ((start []).setMem [(0x200, 0xFF), (0x201, 0xFF)]).env.calls = [] ∧
    ((start []).setMem [(0x200, 0xFF), (0x201, 0xFF)]).status = .running ∧
    fetch ((start []).setMem [(0x200, 0xFF), (0x201, 0xFF)]) = some 0xFFFF#16 ∧
    decode 0xFFFF#16 = .error .familyF := by decide
theorem witness_WaitingAndStoppedStepsChangeNothing :
    (waitingState.env.calls = [] ∧ waitingState.status ≠ .running) ∧
    ((waitingState.setStatus (.fatal .stackOverflow 0x200 none)).env.calls = [] ∧
      (waitingState.setStatus (.fatal .stackOverflow 0x200 none)).status ≠ .running) := by decide
theorem witness_StepTakesOldestHostCall :
    ((start []).setCalls [.step, .timerTick]).env.calls = .step :: [.timerTick] ∧
    ((start []).setCalls [.step, .timerTick]).status = .running := by decide
/-- The three ends of a Step: the word 0000 stops, the word F20A waits, the word 6A2B runs on. -/
theorem witness_StepReportPrecedence :
    (∃ t k p o, State.reset.status = .running ∧ stepEvent State.reset = .next t ∧ t.status = .fatal k p o) ∧
    (∃ t x, (waitingState.setStatus .running).status = .running ∧
      stepEvent (waitingState.setStatus .running) = .next t ∧ t.status = .awaitingKey x) ∧
    (∃ t, lastFetch.status = .running ∧ stepEvent lastFetch = .next t ∧ t.status = .running) :=
  ⟨⟨_, _, _, _, rfl, rfl, rfl⟩, ⟨_, _, rfl, rfl, rfl⟩, ⟨_, rfl, rfl, rfl⟩⟩
theorem witness_RunOfTicksReachesZero :
    (waitingState.setCalls [.timerTick, .timerTick, .step]).env.calls = List.replicate 2 .timerTick ++ [.step] := by decide
theorem witness_KeyEventEndsTheWait : waitingState.status = .awaitingKey 2 ∧ 15 < 16 := by decide
theorem witness_KeyEventOtherwiseIgnored : 16 ≤ 16 ∧ ∀ x, (start []).status ≠ .awaitingKey x := by decide
theorem witness_FirstFetchIsAtProgBase :
    ∃ t, hostCall (.load [0x12, 0x00]) (resetEvent waitingState) = .next t := ⟨_, rfl⟩
theorem witness_LoadWritesTheRom :
    (start []).env.started = false ∧ (start []).mem.wf ∧ (List.replicate 3584 (0xFF : Byte)).length ≤ 3584 :=
  ⟨rfl, by decide, by rw [List.length_replicate]⟩
theorem witness_LoadThatIsRefused :
    ((start []).env.started = false ∧ 3584 < (List.replicate 3585 (0xFF : Byte)).length) ∧
    waitingState.env.started = true := ⟨⟨rfl, by rw [List.length_replicate]; decide⟩, rfl⟩
theorem witness_AddWithCarryOut : (10 : RegIx) ≠ 15 := by decide
theorem witness_SubtractFloorsAtZero : (14 : RegIx) ≠ 15 := by decide
theorem witness_ShiftsInPlace : (0 : RegIx) ≠ 15 := by decide
theorem witness_RandomUnderMask :
    ((start []).setEnv { Env.reset with rands := [0xA5] }).env.rands = 0xA5 :: [] := by decide
theorem witness_CallPushesReturnAddress : (atDepth 0).sp.val < 16 ∧ (atDepth 15).sp.val < 16 := by decide
theorem witness_ReturnPopsReturnAddress : 0 < 16 ∧ (atDepth 1).sp.val = 0 + 1 ∧ (atDepth 16).sp.val = 15 + 1 := by decide
theorem witness_CallThenReturn : (atDepth 15).sp.val < 16 := by decide
theorem witness_StackFaults : (atDepth 16).sp.val = 16 ∧ (atDepth 0).sp.val = 0 ∧ (atDepth 15).sp.val = 15 := by decide
theorem witness_LegacyCallIsDecodeError :
    (0x0FFF#16).toNat < 0x1000 ∧ 0x0FFF#16 ≠ 0x00E0#16 ∧ 0x0FFF#16 ≠ 0x00EE#16 := by decide
/-- The highest sprite byte at 0xFFF, a set bit on the grid over a blank pixel, and a pixel that has none. -/
theorem witness_DrawXorsTheSprite :
    InMemory ((atI 0xFFF).setMem [(0xFFF, 0x80)]) (1 : Fin 16).val ∧ OnGrid 62 31 ∧
    SpriteHas ((atI 0xFFF).setMem [(0xFFF, 0x80)]) 1 2 1 62 31 ∧
    ¬ SpriteHas ((atI 0xFFF).setMem [(0xFFF, 0x80)]) 1 2 1 0 0 ∧
    ¬ Collides ((atI 0xFFF).setMem [(0xFFF, 0x80)]) 1 2 1 ∧
    Collides (((atI 0xFFF).setMem [(0xFFF, 0x80)]).setFb (Framebuffer.flip Framebuffer.blank 62 31)) 1 2 1 := by
  refine ⟨.inr (by decide), ⟨by decide, by decide⟩, ⟨0, 0, by decide, by decide, by decide, by decide, by decide⟩, ?_, ?_,
    ⟨62, 31, ⟨by decide, by decide⟩, ⟨0, 0, by decide, by decide, by decide, by decide, by decide⟩, by decide⟩⟩
  · rintro ⟨r, c, _, _, _, h, _⟩
    have : ((State.reg ((atI 0xFFF).setMem [(0xFFF, 0x80)]) 1).toNat : Nat) = 62 := by decide
    omega
  · rintro ⟨px, py, _, _, h⟩
    exact absurd ((Framebuffer.pixel_blank px py).symm.trans h) (by decide)
theorem witness_DrawTwice :
    (1 : RegIx) ≠ 15 ∧ (2 : RegIx) ≠ 15 ∧ InMemory (atI 0xFF1) (15 : Fin 16).val ∧
    ∀ px py, SpriteHas (atI 0xFF1) 1 2 15 px py → (atI 0xFF1).fbOut px py = false :=
  ⟨by decide, by decide, .inr (by decide), fun px py _ => Framebuffer.pixel_blank px py⟩
theorem witness_DataOutsideMemoryIsFatal :
    ¬ InMemory (atI 0xFFF) (2 : Fin 16).val ∧ 0xFFF < (atI 0xFFE).i.toNat + 2 ∧
    0xFFF < (atI 0xFF1).i.toNat + (15 : RegIx).val :=
  ⟨by rintro (h | h) <;> exact absurd h (by decide), by decide, by decide⟩
theorem witness_KeySkips :
    ((start [(5, 15)]).setEnv { Env.reset with keySamples := [0x8000] }).reg 5 = 15 ∧
    ((start [(5, 15)]).setEnv { Env.reset with keySamples := [0x8000] }).env.keySamples = 0x8000 :: [] := by decide
theorem witness_KeyNumberAboveFifteenIsFatal : 15 < ((start [(5, 16)]).reg 5).toNat := by decide
theorem witness_KeyWaitBegins : (start []).env.calls = [] := by decide
theorem witness_BcdStoresThreeDigits :
    (atI 0xFFD).mem.wf ∧ (atI 0xFFD).i.toNat + 2 ≤ 0xFFF ∧ (atI 0xFFE).mem.wf ∧ 0xFFF < (atI 0xFFE).i.toNat + 2 := by
  decide
theorem witness_RegisterDumpAndLoad :
    (atI 0xFF0).mem.wf ∧ (atI 0xFF0).i.toNat + (15 : RegIx).val ≤ 0xFFF := by decide
theorem witness_DumpThenLoadRoundTrip :
    (atI 0xFF0).mem.wf ∧ (atI 0xFF0).i.toNat + (15 : RegIx).val ≤ 0xFFF ∧
    ∃ t, exec (.ldMemVx 15) (atI 0xFF0) = .next t := ⟨by decide, by decide, _, rfl⟩
theorem witness_FatalChangesOnlyStatus :
    ∃ t k p o, (start []).status = .running ∧ exec .ret (start []) = .next t ∧ t.status = .fatal k p o :=
  ⟨_, _, _, _, rfl, rfl, rfl⟩
theorem witness_MemoryWriters :
    (atI 0x300).mem.wf ∧ (∃ t, exec (.ldBVx 1) (atI 0x300) = .next t) ∧ ¬ StoresTo (atI 0x300) (.ldBVx 1) 0x303 ∧
    ¬ StoresTo (atI 0x300) (.ldMemVx 1) 0x2FF ∧ ¬ StoresTo (atI 0x300) .cls 0x300 :=
  ⟨by decide, ⟨_, rfl⟩, fun h => absurd h.2 (by decide), fun h => absurd h.1 (by decide), id⟩
theorem witness_RegisterWriters :
    (∃ t, exec (.addReg 1 2) (start []) = .next t) ∧ ¬ MayWrite (.addReg 1 2) 2 ∧ ¬ MayWrite (.ldVxMem 3) 4 := by
  refine ⟨⟨_, rfl⟩, ?_, ?_⟩ <;> simp [MayWrite]
theorem witness_FramebufferWriters :
    (∃ t, exec .ret (atDepth 1) = .next t) ∧ Instr.ret ≠ .cls ∧ ∀ x y n, Instr.ret ≠ .drw x y n :=
  ⟨⟨_, rfl⟩, by decide, fun _ _ _ => by simp⟩
theorem witness_SpecialRegisterWriters :
    (∃ t, exec .cls (start []) = .next t) ∧ (∀ n, Instr.cls ≠ .call n) ∧ Instr.cls ≠ .ret ∧ (∀ n, Instr.cls ≠ .ldI n) ∧
    (∀ x, Instr.cls ≠ .addI x) ∧ (∀ x, Instr.cls ≠ .ldFVx x) ∧ (∀ x, Instr.cls ≠ .ldDtVx x) ∧
    (∀ x, Instr.cls ≠ .ldStVx x) := ⟨⟨_, rfl⟩, by simp⟩
theorem witness_DirtyAndSoundAreInvisible : ∃ t, exec (.ldStVx 1) (start [(1, 5)]) = .next t := ⟨_, rfl⟩
theorem witness_CanonicalMemoryIsUnique : Memory.wf [(0x51, 0x07)] ∧ Memory.wf (Memory.writeBytes [] 0x4F [0x80, 0, 7]) := by
  decide
/-- A state that waits for a key meets the invariant, and a key event takes a step from it. -/
theorem witness_InvariantKeptByEveryStep :
    (waitingState.setCalls [.keyEvent 7]).Inv ∧ ∃ t, step (waitingState.setCalls [.keyEvent 7]) = .next t := by
  refine ⟨⟨by decide, by decide, by decide, ?_, ?_, ?_, fun _ => rfl⟩, _, rfl⟩
  · intro x h
    cases h
    decide
  · intro k p o h
    cases h
  · intro k p h
    cases h
/-- A state some run reaches, and a stopped state with an event waiting that is no Reset. -/
theorem witness_ReachableStates :
    Reachable (State.boot [.load [0x12, 0x00]] [] []) ∧
    ∃ t, step ((start []).setStatus (.fatal .decodeError 0x200 none) |>.setCalls [.timerTick]) = .next t ∧
      ¬ ((start []).setStatus (.fatal .decodeError 0x200 none) |>.setCalls [.timerTick]).notFatal ∧
      ((start []).setStatus (.fatal .decodeError 0x200 none) |>.setCalls [.timerTick]).env.calls.head? ≠ some .reset :=
  ⟨.boot _ _ _, _, rfl, fun h => h _ _ _ rfl, by decide⟩

end Sys2Proof.Tests
end

section
/-! PROOFS. Control flow: the legacy call (42_control_flow R129). The words below 0x1000 are those of family 0,
and such a word is the encoding of the legacy call with its own low twelve bits, so the word a stop records is the
word that was fetched. -/

namespace Sys2Proof

/-! ### The words of family 0 -/

theorem fieldF_of_lt {op : Word} (h : op.toNat < 0x1000) : fieldF op = 0x0#4 := by
  apply BitVec.eq_of_toNat_eq
  rw [fieldF_toNat, Nat.div_eq_of_lt h]
  rfl

theorem decode_of_lt {op : Word} (h : op.toNat < 0x1000) : decode op = decodeFamily0 op := by
  simp only [decode, fieldF_of_lt h]
  rfl

theorem decodeFamily0_of_notLiteral {op : Word} (hcls : op ≠ 0x00E0#16) (hret : op ≠ 0x00EE#16) :
    decodeFamily0 op = .ok (.sys (fieldNNN op)) := by
  rw [decodeFamily0, if_neg hcls, if_neg hret]

theorem encode_sys_fieldNNN {op : Word} (h : op.toNat < 0x1000) : encode (.sys (fieldNNN op)) = op := by
  rw [encode, ← fieldF_of_lt h, packAddr_fields]

namespace Machine

/-! ### The legacy call -/

theorem exec_sys (nnn : Addr12) (s : State) :
    exec (.sys nnn) s = .next (s.setStatus (.fatal .decodeError s.pc (some (encode (.sys nnn))))) :=
  raiseBy_eq .decodeError (.sys nnn) s

/-- Settles O35: the operand is the word's own low twelve bits, and the word recorded is the one decoded because
encoding the legacy call gives that word back. -/
theorem legacyCallIsDecodeError : Obligations.LegacyCallIsDecodeError := by
  intro op s hlt hcls hret
  refine ⟨fieldNNN op, ?operand, ?decoded, ?executed⟩
  case operand => rw [fieldNNN_toNat, Nat.mod_eq_of_lt hlt]
  case decoded => rw [decode_of_lt hlt, decodeFamily0_of_notLiteral hcls hret]
  case executed =>
    rw [exec_sys, encode_sys_fieldNNN hlt]
    rfl

end Machine

end Sys2Proof
end

section
/-! PROOFS. Input: the key event that ends a wait (44_input R154). -/

namespace Sys2Proof.Machine

/-- The second half of FX0A: a keypad key is stored in the register the wait names, and the loop resumes
(44_input R154). -/
theorem keyEvent_awaitingKey {s : State} {x : RegIx} {k : Nat} (hwait : s.status = .awaitingKey x)
    (hkey : k < Config.numKeys) :
    keyEvent k s = ((s.setReg x (BitVec.ofNat 8 k)).advance).setStatus .running := by
  simp only [keyEvent, hwait, if_pos hkey]

/-- Settles O14: a keypad key fits in a byte, so the register holds its number; the rest is read off the three
updates the event makes. -/
theorem keyEventEndsTheWait : Obligations.KeyEventEndsTheWait := by
  intro s x k hwait hkey
  refine ⟨_, congrArg Host.Outcome.next (keyEvent_awaitingKey hwait hkey), ?stored, rfl, rfl, ?others, rfl⟩
  case stored =>
    have hbyte : k < 2 ^ 8 := by omega
    rw [State.reg_setStatus, State.reg_advance, State.reg_setReg, if_pos rfl, BitVec.toNat_ofNat,
      Nat.mod_eq_of_lt hbyte]
  case others =>
    intro z hz
    rw [State.reg_setStatus, State.reg_advance, State.reg_setReg, if_neg hz]

end Sys2Proof.Machine
end

section
/-! PROOFS. Encoding: decoder and encoder are inverse to each other, and the decoder follows the rows of the map
(30_encoding section 3) and of the table of decode errors (R79). A masked comparison, as the map prints it, fixes
some of a word's fields; the word is those fields put together, so it is the encoding of the row's instruction. -/

namespace Sys2Proof

open Sys2Proof.Claims

/-! ### Decoding what was encoded -/

/-- A legacy call that is well formed is neither of the two literals. -/
theorem decode_encode_sys {nnn : Addr12} (hwf : (Instr.sys nnn).wellFormed = true) :
    decode (encode (.sys nnn)) = .ok (.sys nnn) := by
  simp only [Instr.wellFormed, Bool.and_eq_true, bne_iff_ne] at hwf
  obtain ⟨hcls, hret⟩ := hwf
  have hne {lit : Word} (h : nnn ≠ fieldNNN lit) : packAddr 0x0#4 nnn ≠ lit := by
    rintro rfl
    exact h (fieldNNN_packAddr _ _).symm
  have hfamily : decode (packAddr 0x0#4 nnn) = decodeFamily0 (packAddr 0x0#4 nnn) := by simp [decode]
  rw [encode, hfamily, decodeFamily0_of_notLiteral (hne hcls) (hne hret), fieldNNN_packAddr]

theorem decode_encode {i : Instr} (hwf : i.wellFormed = true) : decode (encode i) = .ok i := by
  cases i with
  | sys nnn => exact decode_encode_sys hwf
  | cls | ret => decide
  | jp | call | ldI | jpV0 => simp [encode, decode]
  | seImm | sneImm | ldImm | addImm | rnd => simp [encode, decode]
  | seReg | sneReg | drw => simp [encode, decode]
  | ldReg | or | and | xor | addReg | sub | shr | subn | shl => simp [encode, decode, decodeFamily8]
  | skp | sknp => simp [encode, decode, decodeFamilyE]
  | ldVxDt | ldVxK | ldDtVx | ldStVx | addI | ldFVx | ldBVx | ldMemVx | ldVxMem =>
    simp [encode, decode, decodeFamilyF]

theorem decodeBytes_bytesOfWord (op : Word) :
    decodeBytes (bytesOfWord op) = (decode op).map fun i => (i, []) := by
  simp only [decodeBytes, bytesOfWord, wordOfBytes_extract]
  cases decode op <;> rfl

/-- Settles O1: the fields of an encoded word are the operands it was packed from, format by format, and the two
bytes of a word read back are the word. -/
theorem decodeOfEncode : Obligations.DecodeOfEncode := by
  intro i hwf
  refine ⟨decode_encode hwf, ?_⟩
  rw [encodeBytes, decodeBytes_bytesOfWord, decode_encode hwf]
  rfl

/-! ### Encoding what was decoded -/

theorem packAddr_of_fields {op : Word} {f : BitVec 4} (hf : fieldF op = f) : packAddr f (fieldNNN op) = op :=
  hf ▸ packAddr_fields op

theorem packXNN_of_fields {op : Word} {f : BitVec 4} {nn : Byte} (hf : fieldF op = f) (hnn : fieldNN op = nn) :
    packXNN f (fieldX op) nn = op :=
  hf ▸ hnn ▸ packXNN_fields op

theorem packXYN_of_fields {op : Word} {f : BitVec 4} {n : Fin 16} (hf : fieldF op = f) (hn : fieldN op = n) :
    packXYN f (fieldX op) (fieldY op) n = op :=
  hf ▸ hn ▸ packXYN_fields op

theorem encode_of_decodeFamily0 {op : Word} {i : Instr} (hf : fieldF op = 0x0#4) (h : decodeFamily0 op = .ok i) :
    encode i = op ∧ i.wellFormed = true := by
  unfold decodeFamily0 at h
  split at h
  · next hop => cases h; exact ⟨hop.symm, rfl⟩
  · next hcls =>
    split at h
    · next hop => cases h; exact ⟨hop.symm, rfl⟩
    · next hret =>
      cases h
      have hpack := packAddr_of_fields hf
      have hne {nnn : Addr12} (hlit : op ≠ packAddr 0x0#4 nnn) : fieldNNN op ≠ nnn := by
        rintro rfl
        exact hlit hpack.symm
      refine ⟨hpack, ?_⟩
      simp only [Instr.wellFormed, Bool.and_eq_true, bne_iff_ne]
      exact ⟨hne hcls, hne hret⟩

theorem encode_of_decodeFamily8 {op : Word} {i : Instr} (hf : fieldF op = 0x8#4) (h : decodeFamily8 op = .ok i) :
    encode i = op ∧ i.wellFormed = true := by
  unfold decodeFamily8 at h
  split at h
  case h_10 => cases h
  all_goals
    next hn =>
    cases h
    exact ⟨packXYN_of_fields hf (Fin.ext hn), rfl⟩

theorem encode_of_decodeFamilyE {op : Word} {i : Instr} (hf : fieldF op = 0xE#4) (h : decodeFamilyE op = .ok i) :
    encode i = op ∧ i.wellFormed = true := by
  unfold decodeFamilyE at h
  split at h
  case h_3 => cases h
  all_goals
    next hnn =>
    cases h
    exact ⟨packXNN_of_fields hf (BitVec.eq_of_toNat_eq hnn), rfl⟩

theorem encode_of_decodeFamilyF {op : Word} {i : Instr} (hf : fieldF op = 0xF#4) (h : decodeFamilyF op = .ok i) :
    encode i = op ∧ i.wellFormed = true := by
  unfold decodeFamilyF at h
  split at h
  case h_10 => cases h
  all_goals
    next hnn =>
    cases h
    exact ⟨packXNN_of_fields hf (BitVec.eq_of_toNat_eq hnn), rfl⟩

/-- Settles O2: family by family, the instruction's format puts the word's own fields together again. -/
theorem encodeOfDecode : Obligations.EncodeOfDecode := by
  intro op i h
  unfold decode at h
  split at h
  case h_1 hf => exact encode_of_decodeFamily0 (BitVec.eq_of_toNat_eq hf) h
  case h_9 hf => exact encode_of_decodeFamily8 (BitVec.eq_of_toNat_eq hf) h
  case h_15 hf => exact encode_of_decodeFamilyE (BitVec.eq_of_toNat_eq hf) h
  case h_16 =>
    have hf : (fieldF op).toNat = 15 := by
      have := (fieldF op).isLt
      simp only [imp_false] at *
      omega
    exact encode_of_decodeFamilyF (BitVec.eq_of_toNat_eq hf) h
  case h_2 hf | h_3 hf | h_11 hf | h_12 hf =>
    cases h
    exact ⟨packAddr_of_fields (BitVec.eq_of_toNat_eq hf), rfl⟩
  case h_4 hf | h_5 hf | h_7 hf | h_8 hf | h_13 hf =>
    cases h
    exact ⟨packXNN_of_fields (BitVec.eq_of_toNat_eq hf) rfl, rfl⟩
  case h_6 hf | h_10 hf =>
    split at h
    · next hn => cases h; exact ⟨packXYN_of_fields (BitVec.eq_of_toNat_eq hf) hn, rfl⟩
    · cases h
  case h_14 hf =>
    cases h
    exact ⟨packXYN_of_fields (BitVec.eq_of_toNat_eq hf) rfl, rfl⟩

/-- The word of an instruction decodes to it, and to no other word's instruction (O1 and O2 as one rule). -/
theorem decode_eq_ok_iff {op : Word} {i : Instr} :
    decode op = .ok i ↔ op = encode i ∧ i.wellFormed = true :=
  ⟨fun h => ⟨(encodeOfDecode op i h).1.symm, (encodeOfDecode op i h).2⟩,
    fun ⟨hop, hwf⟩ => hop ▸ decode_encode hwf⟩

/-! ### The digits of a word are the decoder's fields -/

theorem digit_zero (op : Word) : digit op 0 = fieldN op := by
  apply Fin.eq_of_val_eq
  simp [digit, fieldN_val]

theorem digit_one (op : Word) : digit op 1 = fieldY op := by
  apply Fin.eq_of_val_eq
  simp [digit, fieldY_val]

theorem digit_two (op : Word) : digit op 2 = fieldX op := by
  apply Fin.eq_of_val_eq
  simp [digit, fieldX_val]

theorem digit_three_val (op : Word) : (digit op 3).val = (fieldF op).toNat := by
  have := op.isLt
  simp only [digit, fieldF_toNat]
  omega

theorem lowByte_eq (op : Word) : lowByte op = fieldNN op := by
  apply BitVec.eq_of_toNat_eq
  simp [lowByte, fieldNN_toNat]

theorem low12_eq (op : Word) : low12 op = fieldNNN op := by
  apply BitVec.eq_of_toNat_eq
  simp [low12, fieldNNN_toNat]

/-! ### The rows of the map: what a word equal to its match under its mask is -/

/-- A field that the mask keeps whole is the match's. -/
theorem fieldF_of_mask {op m v : Word} (h : op &&& m = v) (hm : fieldF m = 0xF#4) : fieldF op = fieldF v := by
  have hand : fieldF (op &&& m) = fieldF op &&& fieldF m := BitVec.extractLsb'_and
  rw [← h, hand, hm]
  exact BitVec.and_allOnes.symm

theorem fieldNN_of_mask {op m v : Word} (h : op &&& m = v) (hm : fieldNN m = 0xFF#8) : fieldNN op = fieldNN v := by
  have hand : fieldNN (op &&& m) = fieldNN op &&& fieldNN m := BitVec.extractLsb'_and
  rw [← h, hand, hm]
  exact BitVec.and_allOnes.symm

theorem fieldN_of_mask {op m v : Word} (h : op &&& m = v) (hm : m.extractLsb' 0 4 = 0xF#4) :
    fieldN op = fieldN v := by
  have hand : (op &&& m).extractLsb' 0 4 = op.extractLsb' 0 4 &&& m.extractLsb' 0 4 := BitVec.extractLsb'_and
  rw [← h, fieldN, fieldN, hand, hm]
  exact congrArg BitVec.toFin BitVec.and_allOnes.symm

section Rows

variable {op v : Word} {f : BitVec 4}

theorem rowAddr (h : op &&& 0xF000#16 = v) (hf : fieldF v = f := by decide) : op = packAddr f (low12 op) := by
  rw [low12_eq, packAddr_of_fields ((fieldF_of_mask h (by decide)).trans hf)]

theorem rowXImm (h : op &&& 0xF000#16 = v) (hf : fieldF v = f := by decide) :
    op = packXNN f (digit op 2) (lowByte op) := by
  rw [lowByte_eq, digit_two, packXNN_of_fields ((fieldF_of_mask h (by decide)).trans hf) rfl]

theorem rowXSel {nn : Byte} (h : op &&& 0xF0FF#16 = v) (hf : fieldF v = f := by decide)
    (hnn : fieldNN v = nn := by decide) : op = packXNN f (digit op 2) nn := by
  rw [digit_two, packXNN_of_fields ((fieldF_of_mask h (by decide)).trans hf)
    ((fieldNN_of_mask h (by decide)).trans hnn)]

theorem rowXY {n : Fin 16} (h : op &&& 0xF00F#16 = v) (hf : fieldF v = f := by decide)
    (hn : fieldN v = n := by decide) : op = packXYN f (digit op 2) (digit op 1) n := by
  rw [digit_two, digit_one, packXYN_of_fields ((fieldF_of_mask h (by decide)).trans hf)
    ((fieldN_of_mask h (by decide)).trans hn)]

theorem rowXYN (h : op &&& 0xF000#16 = v) (hf : fieldF v = f := by decide) :
    op = packXYN f (digit op 2) (digit op 1) (digit op 0) := by
  rw [digit_two, digit_one, digit_zero, packXYN_of_fields ((fieldF_of_mask h (by decide)).trans hf) rfl]

end Rows

/-- A word that is the encoding of a well-formed instruction decodes to it. -/
theorem decode_of_eq_encode {i : Instr} (hwf : i.wellFormed = true) (h : op = encode i) : decode op = .ok i :=
  decode_eq_ok_iff.mpr ⟨h, hwf⟩

theorem toNat_lt_of_mask {op : Word} (h : op &&& 0xF000#16 = 0x0000#16) : op.toNat < 0x1000 := by
  have hf := congrArg BitVec.toNat (fieldF_of_mask h (by decide))
  have hzero : (fieldF 0x0000#16).toNat = 0 := by decide
  rw [fieldF_toNat, hzero] at hf
  omega

/-- Settles O3: under the row's mask the word is the encoding of the row's instruction, so it decodes to it. -/
theorem decodeFollowsOpcodeMap : Obligations.DecodeFollowsOpcodeMap := by
  intro op
  refine ⟨fun h hcls hret => ?sys, fun h => ?cls, fun h => ?ret,
    fun h => decode_of_eq_encode rfl (rowAddr h), fun h => decode_of_eq_encode rfl (rowAddr h),
    fun h => decode_of_eq_encode rfl (rowXImm h), fun h => decode_of_eq_encode rfl (rowXImm h),
    fun h => decode_of_eq_encode rfl (rowXY h),
    fun h => decode_of_eq_encode rfl (rowXImm h), fun h => decode_of_eq_encode rfl (rowXImm h),
    fun h => decode_of_eq_encode rfl (rowXY h), fun h => decode_of_eq_encode rfl (rowXY h),
    fun h => decode_of_eq_encode rfl (rowXY h), fun h => decode_of_eq_encode rfl (rowXY h),
    fun h => decode_of_eq_encode rfl (rowXY h), fun h => decode_of_eq_encode rfl (rowXY h),
    fun h => decode_of_eq_encode rfl (rowXY h), fun h => decode_of_eq_encode rfl (rowXY h),
    fun h => decode_of_eq_encode rfl (rowXY h), fun h => decode_of_eq_encode rfl (rowXY h),
    fun h => decode_of_eq_encode rfl (rowAddr h), fun h => decode_of_eq_encode rfl (rowAddr h),
    fun h => decode_of_eq_encode rfl (rowXImm h), fun h => decode_of_eq_encode rfl (rowXYN h),
    fun h => decode_of_eq_encode rfl (rowXSel h), fun h => decode_of_eq_encode rfl (rowXSel h),
    fun h => decode_of_eq_encode rfl (rowXSel h), fun h => decode_of_eq_encode rfl (rowXSel h),
    fun h => decode_of_eq_encode rfl (rowXSel h), fun h => decode_of_eq_encode rfl (rowXSel h),
    fun h => decode_of_eq_encode rfl (rowXSel h), fun h => decode_of_eq_encode rfl (rowXSel h),
    fun h => decode_of_eq_encode rfl (rowXSel h), fun h => decode_of_eq_encode rfl (rowXSel h),
    fun h => decode_of_eq_encode rfl (rowXSel h)⟩
  case sys => rw [decode_of_lt (toNat_lt_of_mask h), decodeFamily0_of_notLiteral hcls hret, low12_eq]
  case cls => exact decode_of_eq_encode rfl h
  case ret => exact decode_of_eq_encode rfl h

/-! ### The table of decode errors -/

/-- What the table of R79 lists: the decoder refuses the word, or reads it as the legacy call. -/
def NoOperation (d : Except Reject Instr) : Prop := (∃ r, d = .error r) ∨ ∃ nnn, d = .ok (.sys nnn)

@[simp] theorem noOperation_error (r : Reject) : NoOperation (.error r) := .inl ⟨r, rfl⟩

@[simp] theorem noOperation_ok_iff {i : Instr} : NoOperation (.ok i) ↔ ∃ nnn, i = .sys nnn := by
  simp [NoOperation]

theorem noOperation_decodeFamily0_iff {op : Word} :
    NoOperation (decodeFamily0 op) ↔ op ≠ 0x00E0#16 ∧ op ≠ 0x00EE#16 := by
  by_cases hcls : op = 0x00E0#16
  · simp [decodeFamily0, hcls]
  · by_cases hret : op = 0x00EE#16 <;> simp [decodeFamily0, hcls, hret]

theorem noOperation_decodeFamily8_iff {op : Word} :
    NoOperation (decodeFamily8 op) ↔ digit op 0 ∈ [0x8, 0x9, 0xA, 0xB, 0xC, 0xD, 0xF] := by
  rw [digit_zero, decodeFamily8]
  generalize fieldN op = n
  fin_cases n <;> simp

theorem noOperation_decodeFamilyE_iff {op : Word} :
    NoOperation (decodeFamilyE op) ↔ lowByte op ∉ [0x9E#8, 0xA1#8] := by
  rw [lowByte_eq, decodeFamilyE]
  split <;> simp_all [← BitVec.toNat_inj]

theorem noOperation_decodeFamilyF_iff {op : Word} :
    NoOperation (decodeFamilyF op) ↔
      lowByte op ∉ [0x07#8, 0x0A#8, 0x15#8, 0x18#8, 0x1E#8, 0x29#8, 0x33#8, 0x55#8, 0x65#8] := by
  rw [lowByte_eq, decodeFamilyF]
  split <;> simp_all [← BitVec.toNat_inj]

/-- Settles O4: the highest digit selects the family, hence the one row of the table that can apply, and within a
strict family the low digit or the low byte decides. -/
theorem decodeErrorWordsExactly : Obligations.DecodeErrorWordsExactly := by
  intro op
  show NoOperation (decode op) ↔ _
  have hdigit (k : Fin 16) : digit op 3 = k ↔ (fieldF op).toNat = k.val := by
    rw [← digit_three_val, Fin.ext_iff]
  simp only [hdigit]
  unfold decode
  split
  case h_1 hf => simp [hf, noOperation_decodeFamily0_iff]
  case h_9 hf => simp [hf, noOperation_decodeFamily8_iff]
  case h_15 hf => simp [hf, noOperation_decodeFamilyE_iff]
  case h_16 =>
    have hf : (fieldF op).toNat = 15 := by
      have := (fieldF op).isLt
      simp only [imp_false] at *
      omega
    simp [hf, noOperation_decodeFamilyF_iff]
  case h_6 hf | h_10 hf => by_cases hn : fieldN op = 0 <;> simp [hf, digit_zero, hn]
  case h_2 hf | h_3 hf | h_4 hf | h_5 hf | h_7 hf | h_8 hf | h_11 hf | h_12 hf | h_13 hf | h_14 hf => simp [hf]

/-- Settles O5: each of the ten words is decoded by evaluation. -/
theorem sampleWordsDecode : Obligations.SampleWordsDecode := by
  unfold Obligations.SampleWordsDecode
  decide

end Sys2Proof
end

section
/-! PROOFS. What an instruction can answer, said once for all of them: either the one fatal condition that holds is
taken, or the instruction completes. The frames of the whole machine (who writes memory, a register, the picture,
the stack, I and the timers) are read off these two answers. -/

namespace Sys2Proof.Machine

open Sys2Proof.Claims

/-! ### The two answers of an instruction -/

/-- The fatal condition an instruction takes in a state, if any (60_exceptions R200 to R204). -/
def stopKind (i : Instr) (s : State) : Option FatalKind :=
  match i with
  | .sys _ => some .decodeError
  | .ret => if s.sp.val = 0 then some .stackUnderflow else none
  | .call _ => if s.sp.val = 16 then some .stackOverflow else none
  | .drw _ _ n => if touchesOutside s.i.toNat n.val then some .outOfBounds else none
  | .ldBVx _ => if touchesOutside s.i.toNat 3 then some .outOfBounds else none
  | .ldMemVx x | .ldVxMem x => if touchesOutside s.i.toNat (x.val + 1) then some .outOfBounds else none
  | .skp x | .sknp x => if noSuchKey (s.reg x) then some .outOfBounds else none
  | _ => none

/-- The state a stop leaves: the record in the status, nothing else changed (60_exceptions R206, R207). -/
def stopped (k : FatalKind) (i : Instr) (s : State) : State := s.setStatus (.fatal k s.pc (some (encode i)))

/-- The state of an answer, where it has one. -/
def answered (s : State) : StepResult → State
  | .next t => t
  | .fault _ | .refused _ => s

/-- The state after 00EE with an entry in use. -/
def returned (s : State) : State :=
  have hsp : s.sp.val - 1 < 16 := Nat.lt_of_le_of_lt (Nat.pred_le_pred (Nat.le_of_lt_succ s.sp.isLt)) (by decide)
  { s with sp := ⟨s.sp.val - 1, Nat.lt_succ_of_lt hsp⟩, pc := s.stk[s.sp.val - 1]'hsp }

/-- The state after 2NNN with a free entry. -/
def called (nnn : Addr12) (s : State) : State :=
  { s with stk := s.stk.setIfInBounds s.sp.val (s.pc + 2#16), sp := s.sp + 1, pc := zextNNN nnn }

/-- The state after DXYN with its bytes in memory. -/
def drawn (x y : RegIx) (n : Fin 16) (s : State) : State :=
  let d := drawSprite s.fb (s.reg x).toNat (s.reg y).toNat (s.mem.readBytes s.i.toNat n.val)
  ((s.setFb d.1).setReg 15 (flagByte d.2)).advance

/-- The state an instruction leaves where it takes no fatal condition. The meanings without a condition are their
own answer, so only the others are written out. -/
def completed (i : Instr) (s : State) : State :=
  match i with
  | .ret => returned s
  | .call nnn => called nnn s
  | .drw x y n => drawn x y n s
  | .ldBVx x => (s.setMem (s.mem.writeBytes s.i.toNat (bcdDigits (s.reg x)))).advance
  | .ldMemVx x => (s.setMem (s.mem.writeBytes s.i.toNat (s.regsUpTo x))).advance
  | .ldVxMem x => (s.setRegs (s.loadedRegs x s.i.toNat)).advance
  | .skp x => s.afterSample.skipIf (s.keyDown (s.reg x).toNat)
  | .sknp x => s.afterSample.skipIf (!s.keyDown (s.reg x).toNat)
  | i => answered s (exec i s)

theorem exec_call_eq_called {s : State} (h : s.sp.val < 16) (nnn : Addr12) :
    exec (.call nnn) s = .next (called nnn s) := by
  have hsp : s.sp + 1 = ⟨s.sp.val + 1, Nat.succ_lt_succ h⟩ := by
    apply Fin.eq_of_val_eq
    rw [Fin.val_add]
    exact Nat.mod_eq_of_lt (Nat.succ_lt_succ h)
  have hstk (w : Word) : s.stk.setIfInBounds s.sp.val w = s.stk.set s.sp.val w h := by
    ext k hk
    simp [Vector.getElem_set, Vector.getElem_setIfInBounds]
  rw [exec_call_of_lt h, called, hsp, hstk]

/-- Every instruction answers a next state: the stop where its fatal condition holds, else the completed state. -/
theorem exec_eq (i : Instr) (s : State) :
    exec i s = .next ((stopKind i s).elim (completed i s) fun k => stopped k i s) := by
  cases i with
  | ret =>
    by_cases h : s.sp.val = 0
    · simp only [stopKind, if_pos h, exec_ret_of_empty h]; rfl
    · simp only [stopKind, if_neg h, exec_ret_of_pos (Nat.pos_of_ne_zero h)]; rfl
  | call nnn =>
    rcases sp_lt_or_full s with h | h
    · simp only [stopKind, if_neg (Nat.ne_of_lt h), exec_call_eq_called h]; rfl
    · simp only [stopKind, if_pos h, exec_call_of_full h]; rfl
  | drw x y n =>
    cases h : touchesOutside s.i.toNat n.val with
    | true => simp only [stopKind, h, exec_drw_outside h]; rfl
    | false => simp only [stopKind, h, exec_drw_inside h]; rfl
  | ldBVx x =>
    cases h : touchesOutside s.i.toNat 3 with
    | true => simp only [stopKind, h, exec_ldBVx_outside h]; rfl
    | false => simp only [stopKind, h, exec_ldBVx_inside h]; rfl
  | ldMemVx x =>
    cases h : touchesOutside s.i.toNat (x.val + 1) with
    | true => simp only [stopKind, h, exec_ldMemVx_outside h]; rfl
    | false => simp only [stopKind, h, exec_ldMemVx_inside h]; rfl
  | ldVxMem x =>
    cases h : touchesOutside s.i.toNat (x.val + 1) with
    | true => simp only [stopKind, h, exec_ldVxMem_outside h]; rfl
    | false => simp only [stopKind, h, exec_ldVxMem_inside h]; rfl
  | skp x =>
    cases h : noSuchKey (s.reg x) with
    | true => simp only [stopKind, h, exec_skp_noKey h]; rfl
    | false => simp only [stopKind, h, exec_skp_key h]; rfl
  | sknp x =>
    cases h : noSuchKey (s.reg x) with
    | true => simp only [stopKind, h, exec_sknp_noKey h]; rfl
    | false => simp only [stopKind, h, exec_sknp_key h]; rfl
  | _ => rfl

/-- The inversion of an execution: the two answers it can have come from. -/
theorem exec_cases {i : Instr} {s t : State} (h : exec i s = .next t) :
    (∃ k, stopKind i s = some k ∧ t = stopped k i s) ∨ (stopKind i s = none ∧ t = completed i s) := by
  rw [exec_eq] at h
  cases hstop : stopKind i s with
  | some k => exact .inl ⟨k, rfl, by rw [hstop] at h; cases h; rfl⟩
  | none => exact .inr ⟨rfl, by rw [hstop] at h; cases h; rfl⟩

/-- Settles O50: taking a fatal condition is a next state, and so is completing. -/
theorem everyInstructionAnswersNext : Obligations.EveryInstructionAnswersNext :=
  fun i s => ⟨_, exec_eq i s⟩

/-- An instruction that completes keeps the status, but for FX0A, which changes nothing else. -/
theorem completed_status {i : Instr} {s : State} (h : stopKind i s = none) :
    (∃ x, i = .ldVxK x ∧ completed i s = s.setStatus (.awaitingKey x)) ∨ (completed i s).status = s.status := by
  cases i with
  | sys nnn => cases h
  | ldVxK x => exact .inl ⟨x, rfl, rfl⟩
  | _ => exact .inr rfl

/-- Settles O51: from a Running state a completed instruction ends Running or waiting, so a Fatal status comes from
the stop alone. -/
theorem fatalChangesOnlyStatus : Obligations.FatalChangesOnlyStatus := by
  intro i s t k p o hrun h hfatal
  rcases exec_cases h with ⟨k', -, rfl⟩ | ⟨hstop, rfl⟩
  · cases hfatal; rfl
  · rcases completed_status hstop with ⟨x, -, hwait⟩ | hkept
    · rw [hwait] at hfatal; cases hfatal
    · rw [hkept, hrun] at hfatal; cases hfatal

/-! ### Frames: what an instruction that completes leaves as it was -/

/-- An instruction that completes keeps memory, or is FX33 or FX55 and writes its bytes inside memory. -/
theorem completed_mem {i : Instr} {s : State} (h : stopKind i s = none) :
    (completed i s).mem = s.mem ∨ ∃ bytes, s.i.toNat + bytes.length ≤ Config.memSize ∧
      (completed i s).mem = s.mem.writeBytes s.i.toNat bytes ∧
      ∀ a, s.i.toNat ≤ a → a < s.i.toNat + bytes.length → StoresTo s i a := by
  cases i with
  | ldBVx x =>
    have hin : touchesOutside s.i.toNat 3 = false := by simpa [stopKind] using h
    exact .inr ⟨bcdDigits (s.reg x), (touchesOutside_eq_false.mp hin).resolve_left (by decide), rfl,
      fun _ hlo hhi => ⟨hlo, hhi⟩⟩
  | ldMemVx x =>
    have hin : touchesOutside s.i.toNat (x.val + 1) = false := by simpa [stopKind] using h
    refine .inr ⟨s.regsUpTo x, ?_, rfl, ?_⟩
    · rw [length_regsUpTo]
      exact (touchesOutside_eq_false.mp hin).resolve_left (Nat.succ_ne_zero _)
    · rw [length_regsUpTo]
      exact fun _ hlo hhi => ⟨hlo, hhi⟩
  | _ => exact .inl rfl

/-- Settles O52: a completed store changes the bytes it is said to store to, and everything else keeps memory. -/
theorem memoryWriters : Obligations.MemoryWriters := by
  intro i s t hwf h a ha
  rcases exec_cases h with ⟨k, -, rfl⟩ | ⟨hstop, rfl⟩
  · rfl
  · rcases completed_mem hstop with hkept | ⟨bytes, hin, hmem, hstores⟩
    · rw [hkept]
    · rw [hmem, Memory.read_writeBytes hwf hin, if_neg fun hrange => ha (hstores a hrange.1 hrange.2)]

theorem completed_reg {i : Instr} {z : RegIx} (hz : ¬ MayWrite i z) (s : State) :
    (completed i s).reg z = s.reg z := by
  cases i with
  | ldImm | addImm | ldReg | or | and | xor | rnd | ldVxDt =>
    exact (State.reg_setReg _ _ _ _).trans (if_neg hz)
  | addReg | sub | shr | subn | shl =>
    simp only [MayWrite, not_or] at hz
    exact (State.reg_setRegFlag _ _ _ _ _).trans ((if_neg hz.2).trans (if_neg hz.1))
  | drw => exact (State.reg_setReg _ _ _ _).trans (if_neg hz)
  | ldVxMem => exact (State.reg_loadedRegs _ _ _ _).trans (if_neg hz)
  | _ => rfl

/-- Settles O53: a stop changes no register, and a completed instruction writes only its own. -/
theorem registerWriters : Obligations.RegisterWriters := by
  intro i s t z h hz
  rcases exec_cases h with ⟨k, -, rfl⟩ | ⟨-, rfl⟩
  · rfl
  · exact completed_reg hz s

theorem completed_fb {i : Instr} (hcls : i ≠ .cls) (hdrw : ∀ x y n, i ≠ .drw x y n) (s : State) :
    (completed i s).fb = s.fb ∧ (completed i s).dirty = s.dirty := by
  cases i with
  | cls => exact absurd rfl hcls
  | drw x y n => exact absurd rfl (hdrw x y n)
  | _ => exact ⟨rfl, rfl⟩

/-- Settles O54: a stop keeps both fields, and so does every other completed instruction. -/
theorem framebufferWriters : Obligations.FramebufferWriters := by
  intro i s t h hcls hdrw
  rcases exec_cases h with ⟨k, -, rfl⟩ | ⟨-, rfl⟩
  · exact ⟨rfl, rfl⟩
  · exact completed_fb hcls hdrw s

theorem completed_stk {i : Instr} (hcall : ∀ n, i ≠ .call n) (s : State) : (completed i s).stk = s.stk := by
  cases i with
  | call n => exact absurd rfl (hcall n)
  | _ => rfl

theorem completed_sp {i : Instr} (hcall : ∀ n, i ≠ .call n) (hret : i ≠ .ret) (s : State) :
    (completed i s).sp = s.sp := by
  cases i with
  | call n => exact absurd rfl (hcall n)
  | ret => exact absurd rfl hret
  | _ => rfl

theorem completed_i {i : Instr} (hldI : ∀ n, i ≠ .ldI n) (haddI : ∀ x, i ≠ .addI x)
    (hldF : ∀ x, i ≠ .ldFVx x) (s : State) : (completed i s).i = s.i := by
  cases i with
  | ldI n => exact absurd rfl (hldI n)
  | addI x => exact absurd rfl (haddI x)
  | ldFVx x => exact absurd rfl (hldF x)
  | _ => rfl

theorem completed_dt {i : Instr} (hdt : ∀ x, i ≠ .ldDtVx x) (s : State) : (completed i s).dt = s.dt := by
  cases i with
  | ldDtVx x => exact absurd rfl (hdt x)
  | _ => rfl

theorem completed_st {i : Instr} (hst : ∀ x, i ≠ .ldStVx x) (s : State) : (completed i s).st = s.st := by
  cases i with
  | ldStVx x => exact absurd rfl (hst x)
  | _ => rfl

/-- Settles O55: field by field, for the state after a stop and after a completed instruction. -/
theorem specialRegisterWriters : Obligations.SpecialRegisterWriters := by
  intro i s t h
  rcases exec_cases h with ⟨k, -, rfl⟩ | ⟨-, rfl⟩
  · exact ⟨fun _ => rfl, fun _ _ => rfl, fun _ _ _ => rfl, fun _ => rfl, fun _ => rfl⟩
  · exact ⟨fun hcall => completed_stk hcall s, fun hcall hret => completed_sp hcall hret s,
      fun hldI haddI hldF => completed_i hldI haddI hldF s, fun hdt => completed_dt hdt s,
      fun hst => completed_st hst s⟩

/-! ### The dirty flag and the sound timer are not read -/

/-- Whether an instruction takes a fatal condition depends on neither field. -/
theorem stopKind_dirty_st (i : Instr) (s : State) (d : Bool) (w : Byte) :
    stopKind i { s with dirty := d, st := w } = stopKind i s := by
  cases i <;> rfl

/-- What an instruction completes to depends on neither field but for the two fields themselves. -/
theorem completed_dirty_st (i : Instr) (s : State) (d : Bool) (w : Byte) :
    completed i { s with dirty := d, st := w } =
      { completed i s with
        dirty := (completed i { s with dirty := d, st := w }).dirty
        st := (completed i { s with dirty := d, st := w }).st } := by
  cases i <;> rfl

/-- Settles O56: the same answer is chosen, and it differs in the two fields alone. -/
theorem dirtyAndSoundAreInvisible : Obligations.DirtyAndSoundAreInvisible := by
  intro i s t d w h
  refine ⟨_, exec_eq i _, ?_⟩
  rw [stopKind_dirty_st]
  rcases exec_cases h with ⟨k, hstop, rfl⟩ | ⟨hstop, rfl⟩
  · rw [hstop]; rfl
  · rw [hstop]; exact completed_dirty_st i s d w

end Sys2Proof.Machine
end

section
/-! PROOFS. The invariant holds at the start of every run and every event keeps it. An event either keeps the fields
the invariant speaks of, or ends in a Running state (where only memory, PC and the stack matter), or is a Step that
begins a wait or stops; only the last two have to say anything of the fetched word. -/

namespace Sys2Proof.Machine

/-! ### Two ways to meet the invariant -/

/-- The invariant speaks of memory, PC, the stack, the status and the started note alone. -/
theorem State.Inv.congr {s t : State} (hinv : s.Inv) (hmem : t.mem = s.mem) (hpc : t.pc = s.pc)
    (hstk : t.stk = s.stk) (hstatus : t.status = s.status)
    (hstarted : s.env.started = true → t.env.started = true) : t.Inv := by
  have hfetch : fetch t = fetch s := fetch_congr hpc hmem
  refine ⟨hmem ▸ hinv.memWf, hpc ▸ hinv.pcBound, hstk ▸ hinv.stkBound, ?_, ?_, ?_, ?_⟩
  · rw [hstatus, hfetch]; exact hinv.waiting
  · rw [hstatus, hfetch, hpc]; exact hinv.record
  · rw [hstatus]; exact hinv.recordKind
  · rw [hstatus]; exact fun hstop => hstarted (hinv.stopped hstop)

/-- In a Running state the clauses about a wait and a stop say nothing. -/
theorem State.Inv.of_running {t : State} (hrun : t.status = .running) (hmem : t.mem.wf) (hpc : t.pc.toNat ≤ 0x10FE)
    (hstk : ∀ (k : Nat) (h : k < 16), (t.stk[k]'h).toNat ≤ 0x1000) : t.Inv :=
  ⟨hmem, hpc, hstk, by simp [hrun], by simp [hrun], by simp [hrun], by simp [hrun]⟩

/-! ### The start of a run -/

theorem inv_setEnv_reset (e : Env) : (State.reset.setEnv e).Inv :=
  State.Inv.of_running rfl Memory.wf_nil (by decide : State.reset.pc.toNat ≤ 0x10FE) fun k hk => by
    have hzero : (State.reset.setEnv e).stk[k] = 0 := Vector.getElem_replicate hk
    rw [hzero]
    decide

/-- Settles O58: the reset state runs, with nothing listed in memory, PC at 0x200 and a stack of zeros. -/
theorem invariantAtBoot : Obligations.InvariantAtBoot :=
  ⟨inv_setEnv_reset Env.reset, fun _ _ _ => inv_setEnv_reset _⟩

/-! ### An instruction that completes -/

theorem mem_wf_completed {i : Instr} {s : State} (hwf : s.mem.wf) (h : stopKind i s = none) :
    (completed i s).mem.wf := by
  rcases completed_mem h with hkept | ⟨bytes, hin, hmem, -⟩
  · rwa [hkept]
  · rw [hmem]
    exact Memory.wf_writeBytes hwf hin

theorem toNat_add_ofNat_le (w : Word) (n : Nat) : (w + BitVec.ofNat 16 n).toNat ≤ w.toNat + n := by
  rw [BitVec.toNat_add, BitVec.toNat_ofNat]
  exact (Nat.mod_le _ _).trans (Nat.add_le_add_left (Nat.mod_le _ _) _)

theorem pc_lt_of_fetch {s : State} {op : Word} (h : fetch s = some op) : s.pc.toNat < 0xFFF := by
  by_contra hge
  rw [fetch_of_ge (Nat.le_of_not_lt hge)] at h
  cases h

/-- A fetched word lies below 0xFFF, so PC after it is at most PC + 4, a 12-bit target with at most a byte added, or
a stack entry. -/
theorem pc_completed_le {i : Instr} {s : State} (hpc : s.pc.toNat < 0xFFF)
    (hstk : ∀ (k : Nat) (h : k < 16), (s.stk[k]'h).toNat ≤ 0x1000) : (completed i s).pc.toNat ≤ 0x10FE := by
  have hnext : (s.pc + 2#16).toNat ≤ 0x10FE := (toNat_add_ofNat_le _ _).trans (by omega)
  have hskip (c : Bool) : (s.skipIf c).pc.toNat ≤ 0x10FE := by
    cases c <;> exact (toNat_add_ofNat_le _ _).trans (by simp; omega)
  cases i with
  | sys | ldVxK => exact Nat.le_of_lt (Nat.lt_of_lt_of_le hpc (by decide))
  | ret => exact Nat.le_trans (hstk _ _) (by decide)
  | jp nnn | call nnn =>
    have := nnn.isLt
    exact (zextNNN_toNat nnn).trans_le (by omega)
  | jpV0 nnn =>
    have := nnn.isLt
    have := s.reg_lt 0
    exact (offsetTarget_toNat nnn (s.reg 0)).trans_le (by omega)
  | seImm | sneImm | seReg | sneReg | skp | sknp => exact hskip _
  | _ => exact hnext

theorem stk_completed_le {i : Instr} {s : State} (hpc : s.pc.toNat < 0xFFF)
    (hstk : ∀ (k : Nat) (h : k < 16), (s.stk[k]'h).toNat ≤ 0x1000) (k : Nat) (hk : k < 16) :
    ((completed i s).stk[k]'hk).toNat ≤ 0x1000 := by
  by_cases hcall : ∃ nnn, i = .call nnn
  · obtain ⟨nnn, rfl⟩ := hcall
    have hentry : (completed (.call nnn) s).stk[k] = if s.sp.val = k then s.pc + 2#16 else s.stk[k] :=
      Vector.getElem_setIfInBounds hk
    rw [hentry]
    split
    · exact (toNat_add_ofNat_le _ _).trans (by omega)
    · exact hstk k hk
  · simp only [not_exists] at hcall
    simp only [completed_stk hcall]
    exact hstk k hk

/-! ### Each event keeps the invariant -/

/-- Fetch, decode, execute: the clauses about a wait and a stop hold because the word fetched is the instruction's
own (`encodeOfDecode`) and still stands at PC. -/
theorem inv_exec {s t : State} {op : Word} {i : Instr} (hinv : s.Inv) (hrun : s.status = .running)
    (hstarted : s.env.started = true) (hfetch : fetch s = some op) (hdecode : decode op = .ok i)
    (h : exec i s = .next t) : t.Inv := by
  rcases exec_cases h with ⟨k, -, rfl⟩ | ⟨hstop, rfl⟩
  · have hword : encode i = op := (encodeOfDecode op i hdecode).1
    refine ⟨hinv.memWf, hinv.pcBound, hinv.stkBound, ?_, ?_, ?_, fun _ => hstarted⟩
    · rintro x ⟨⟩
    · rintro k p o ⟨⟩
      exact ⟨rfl, hword ▸ hfetch.symm⟩
    · rintro k p ⟨⟩
  · rcases completed_status hstop with ⟨x, rfl, hwait⟩ | hkept
    · rw [hwait]
      refine ⟨hinv.memWf, hinv.pcBound, hinv.stkBound, ?_, ?_, ?_, fun _ => hstarted⟩
      · rintro x ⟨⟩
        exact (congrArg (Option.map decode) hfetch).trans (congrArg some hdecode)
      · rintro k p o ⟨⟩
      · rintro k p ⟨⟩
    · have hpc := pc_lt_of_fetch hfetch
      exact State.Inv.of_running (hkept.trans hrun) (mem_wf_completed hinv.memWf hstop)
        (pc_completed_le hpc hinv.stkBound) (stk_completed_le hpc hinv.stkBound)

theorem inv_markStarted {s : State} (hinv : s.Inv) : s.markStarted.Inv :=
  hinv.congr rfl rfl rfl rfl fun _ => rfl

/-- A fatal condition of the fetch or the decoder meets the record's clauses when it records what was fetched. -/
theorem inv_raise {s t : State} {k : FatalKind} {o : Option Word} (hinv : s.Inv) (hstarted : s.env.started = true)
    (hword : o = fetch s) (hkind : o = none → k = .outOfBounds) (h : raise k o s = .next t) : t.Inv := by
  cases h
  refine ⟨hinv.memWf, hinv.pcBound, hinv.stkBound, ?_, ?_, ?_, fun _ => hstarted⟩
  · rintro x ⟨⟩
  · rintro k p o ⟨⟩
    exact ⟨rfl, hword⟩
  · rintro k p hnone
    cases hnone
    exact hkind rfl

theorem inv_stepEvent {s t : State} (hinv : s.Inv) (h : stepEvent s = .next t) : t.Inv := by
  rcases stepEvent_cases s with
    ⟨-, heq⟩ | ⟨hrun, ⟨hfetch, heq⟩ | ⟨op, r, hfetch, -, heq⟩ | ⟨op, i, hfetch, hdec, heq⟩⟩
  · rw [heq] at h; cases h; exact hinv
  · exact inv_raise (inv_markStarted hinv) rfl hfetch.symm (fun _ => rfl) (heq ▸ h)
  · exact inv_raise (inv_markStarted hinv) rfl hfetch.symm (by simp) (heq ▸ h)
  · exact inv_exec (inv_markStarted hinv) hrun rfl hfetch hdec (heq ▸ h)

/-- A Load that writes comes before the first Step, so the state runs. -/
theorem inv_loadEvent {s t : State} {bytes : List Byte} (hinv : s.Inv) (h : loadEvent bytes s = .next t) :
    t.Inv := by
  rcases loadEvent_cases bytes s with ⟨-, heq⟩ | ⟨-, -, heq⟩ | ⟨hfresh, hlen, heq⟩
  · rw [heq] at h; cases h
  · rw [heq] at h; cases h; exact hinv
  · rw [heq] at h; cases h
    have hrun : s.status = .running := by
      by_contra hstop
      rw [hinv.stopped hstop] at hfresh
      cases hfresh
    exact State.Inv.of_running hrun
      (Memory.wf_writeBytes hinv.memWf (by simp only [Config.memSize]; omega)) hinv.pcBound hinv.stkBound

/-- Everything a key event can do: end the wait, or nothing. -/
theorem keyEvent_cases (k : Nat) (s : State) :
    (∃ x, s.status = .awaitingKey x ∧ k < 16 ∧
      keyEvent k s = ((s.setReg x (BitVec.ofNat 8 k)).advance).setStatus .running) ∨
    ((16 ≤ k ∨ ∀ x, s.status ≠ .awaitingKey x) ∧ keyEvent k s = s) := by
  cases hs : s.status with
  | running => exact .inr ⟨.inr (by simp), by simp only [keyEvent, hs]⟩
  | fatal => exact .inr ⟨.inr (by simp), by simp only [keyEvent, hs]⟩
  | awaitingKey x =>
    by_cases hk : k < 16
    · exact .inl ⟨x, rfl, hk, keyEvent_awaitingKey hs hk⟩
    · exact .inr ⟨.inl (Nat.le_of_not_lt hk), by simp only [keyEvent, hs, Config.numKeys, if_neg hk]⟩

/-- The wait stands on a word that was fetched, so PC can advance past it. -/
theorem inv_keyEvent {s : State} (hinv : s.Inv) (k : Nat) : (keyEvent k s).Inv := by
  rcases keyEvent_cases k s with ⟨x, hwait, -, heq⟩ | ⟨-, heq⟩
  · obtain ⟨op, hfetch, -⟩ := Option.map_eq_some_iff.mp (hinv.waiting x hwait)
    have hpc := pc_lt_of_fetch hfetch
    rw [heq]
    exact State.Inv.of_running rfl hinv.memWf ((toNat_add_ofNat_le s.pc 2).trans (by omega)) hinv.stkBound
  · rwa [heq]

theorem inv_hostCall {s t : State} {c : HostCall} (hinv : s.Inv) (h : hostCall c s = .next t) : t.Inv := by
  cases c with
  | reset => cases h; exact inv_setEnv_reset _
  | load bytes => exact inv_loadEvent hinv h
  | step => exact inv_stepEvent hinv h
  | timerTick => cases h; exact hinv.congr rfl rfl rfl rfl id
  | keyEvent k => cases h; exact inv_keyEvent hinv k
  | clearDirty => cases h; exact hinv.congr rfl rfl rfl rfl id

theorem inv_setCalls {s : State} (hinv : s.Inv) (cs : List HostCall) : (s.setCalls cs).Inv :=
  hinv.congr rfl rfl rfl rfl id

/-- Everything a step can be: a Step where no host call waits, else the oldest host call. -/
theorem step_cases (s : State) :
    (s.env.calls = [] ∧ step s = stepEvent s) ∨
    ∃ c rest, s.env.calls = c :: rest ∧ step s = hostCall c (s.setCalls rest) := by
  cases hc : s.env.calls with
  | nil => exact .inl ⟨rfl, step_of_noCalls hc⟩
  | cons c rest => exact .inr ⟨c, rest, rfl, step_of_call hc⟩

/-- Settles O59: a step is one event, and each event keeps the invariant. -/
theorem invariantKeptByEveryStep : Obligations.InvariantKeptByEveryStep := by
  intro s t hinv h
  rcases step_cases s with ⟨-, heq⟩ | ⟨c, rest, -, heq⟩
  · exact inv_stepEvent hinv (heq ▸ h)
  · exact inv_hostCall (inv_setCalls hinv rest) (heq ▸ h)

/-! ### Every run -/

theorem inv_of_reachable {s : State} (h : Reachable s) : s.Inv := by
  induction h with
  | boot calls rands keys => exact invariantAtBoot.2 calls rands keys
  | step _ hstep ih => exact invariantKeptByEveryStep _ _ ih hstep

theorem stepEvent_of_ne_running {s : State} (h : s.status ≠ .running) : stepEvent s = .next s := by
  rcases stepEvent_cases s with ⟨-, heq⟩ | ⟨hrun, -⟩
  · exact heq
  · exact absurd hrun h

/-- No event but Reset leaves a Fatal status (60_exceptions R209). -/
theorem hostCall_keeps_fatal {s t : State} {c : HostCall} {k : FatalKind} {p : Word} {o : Option Word}
    (hfatal : s.status = .fatal k p o) (hc : c ≠ .reset) (h : hostCall c s = .next t) : t.status = s.status := by
  have hstop : s.status ≠ .running := by simp [hfatal]
  cases c with
  | reset => exact absurd rfl hc
  | load bytes =>
    change loadEvent bytes s = .next t at h
    rcases loadEvent_cases bytes s with ⟨-, heq⟩ | ⟨-, -, heq⟩ | ⟨-, -, heq⟩
    · rw [heq] at h; cases h
    · rw [heq] at h; cases h; rfl
    · rw [heq] at h; cases h; rfl
  | step =>
    change stepEvent s = .next t at h
    rw [stepEvent_of_ne_running hstop] at h; cases h; rfl
  | timerTick => cases h; rfl
  | keyEvent n =>
    cases h
    rcases keyEvent_cases n s with ⟨x, hwait, -⟩ | ⟨-, heq⟩
    · rw [hfatal] at hwait; cases hwait
    · rw [heq]
  | clearDirty => cases h; rfl

theorem exists_fatal_of_not_notFatal {s : State} (h : ¬ s.notFatal) : ∃ k p o, s.status = .fatal k p o := by
  simpa [State.notFatal] using h

/-- Settles O60: by induction on the run, and event by event for a stopped state. -/
theorem reachableStates : Obligations.ReachableStates := by
  refine ⟨fun s => inv_of_reachable, fun s t h hstop hreset => ?_⟩
  obtain ⟨k, p, o, hfatal⟩ := exists_fatal_of_not_notFatal hstop
  rcases step_cases s with ⟨-, heq⟩ | ⟨c, rest, hcalls, heq⟩
  · have hne : s.status ≠ .running := by simp [hfatal]
    rw [heq, stepEvent_of_ne_running hne] at h
    cases h; rfl
  · have hc : c ≠ .reset := by
      rintro rfl
      exact hreset (by rw [hcalls]; rfl)
    exact hostCall_keeps_fatal (s := s.setCalls rest) hfatal hc (heq ▸ h)

end Sys2Proof.Machine
end

section
/-! PROOFS. The step, its report, and the host's events (40_step_cycle, 60_exceptions sections 1, 2 and 5,
70_reset_and_hazards). -/

namespace Sys2Proof.Machine

open Sys2Proof.Claims

/-! ### The Step event, case by case -/

/-- The note that a Step was made is not read by the fetch. -/
@[simp] theorem fetch_markStarted (s : State) : fetch s.markStarted = fetch s := rfl

theorem stepEvent_of_running {s : State} (hrun : s.status = .running) :
    stepEvent s = runInstruction s.markStarted := by
  simp only [stepEvent, hrun]

theorem stepEvent_of_fetch_none {s : State} (hrun : s.status = .running) (hfetch : fetch s = none) :
    stepEvent s = raise .outOfBounds none s.markStarted := by
  simp only [stepEvent_of_running hrun, runInstruction, fetch_markStarted, hfetch]

theorem stepEvent_of_decode_error {s : State} {op : Word} {r : Reject} (hrun : s.status = .running)
    (hfetch : fetch s = some op) (hdec : decode op = .error r) :
    stepEvent s = raise .decodeError (some op) s.markStarted := by
  simp only [stepEvent_of_running hrun, runInstruction, fetch_markStarted, hfetch, hdec]

theorem stepEvent_of_decode_ok {s : State} {op : Word} {i : Instr} (hrun : s.status = .running)
    (hfetch : fetch s = some op) (hdec : decode op = .ok i) : stepEvent s = exec i s.markStarted := by
  simp only [stepEvent_of_running hrun, runInstruction, fetch_markStarted, hfetch, hdec]

/-- Two bytes hold an instruction and nothing more when their word decodes to it. -/
theorem decodeBytes_pair_iff {hi lo : Byte} {i : Instr} :
    decodeBytes [hi, lo] = .ok (i, []) ↔ decode (wordOfBytes hi lo) = .ok i := by
  simp only [decodeBytes]
  cases decode (wordOfBytes hi lo) <;> simp

/-- Settles O6: the word at PC is the two bytes, so the Step executes what they decode to. -/
theorem stepRunsDecodedInstruction : Obligations.StepRunsDecodedInstruction := by
  intro s i hcalls hrun hpc hbytes
  have hdec : decode (s.mem.readWord s.pc.toNat) = .ok i := decodeBytes_pair_iff.mp hbytes
  rw [step_of_noCalls hcalls, stepEvent_of_decode_ok hrun (fetch_of_lt (Nat.lt_of_succ_le hpc)) hdec]
  rfl

/-- Settles O7: on the two sides of the last address from which two bytes can be fetched. -/
theorem fetchOutsideMemoryIsFatal : Obligations.FetchOutsideMemoryIsFatal := by
  intro s hcalls hrun
  refine ⟨fun hout => ?_, fun hin => ⟨_, fetch_of_lt hin, rfl⟩⟩
  rw [step_of_noCalls hcalls, stepEvent_of_fetch_none hrun (fetch_of_ge hout)]
  rfl

/-- Settles O8: the decoder's refusal is taken after a fetch that succeeded, so the word is recorded. -/
theorem undecodableWordIsFatal : Obligations.UndecodableWordIsFatal := by
  intro s op r hcalls hrun hfetch hdec
  rw [step_of_noCalls hcalls, stepEvent_of_decode_error hrun hfetch hdec]
  rfl

/-- Settles O9: with no host call the step is a Step, which looks at the status first. -/
theorem waitingAndStoppedStepsChangeNothing : Obligations.WaitingAndStoppedStepsChangeNothing := by
  intro s hcalls hstop
  rw [step_of_noCalls hcalls, stepEvent_of_ne_running hstop]

/-- Settles O10: the event is the oldest call, and a Step among the calls runs like any other Step. -/
theorem stepTakesOldestHostCall : Obligations.StepTakesOldestHostCall := by
  intro s c rest hcalls
  refine ⟨step_of_call hcalls, ?_⟩
  rintro rfl hrun
  rw [step_of_call hcalls]
  exact stepEvent_of_running (s := s.setCalls rest) hrun

/-! ### The report of a Step -/

/-- In a Running state the picture is drawn by exactly the words 00E0 and DXYN. -/
theorem stepDraws_iff {s : State} (hrun : s.status = .running) :
    stepDraws s = true ↔
      ∃ op, fetch s = some op ∧ (decode op = .ok .cls ∨ ∃ x y n, decode op = .ok (.drw x y n)) := by
  cases hfetch : fetch s with
  | none => simp [stepDraws, hrun, hfetch]
  | some op =>
    cases hdec : decode op with
    | error r => simp [stepDraws, hrun, hfetch, hdec]
    | ok i => cases i <;> simp [stepDraws, hrun, hfetch, hdec]

theorem stepReport_of_running {s t : State} (h : t.status = .running) :
    stepReport s t = if stepDraws s then .frameDirty else .advanced := by
  simp only [stepReport, h]

/-- Settles O11: the status after the Step decides, and in Running the fetched word. -/
theorem stepReportPrecedence : Obligations.StepReportPrecedence := by
  intro s t hrun _
  refine ⟨fun k p o hfatal => ?_, fun x hwait => ?_, fun hrunning => ?_⟩
  · simp only [stepReport, hfatal]
  · simp only [stepReport, hwait]
  · rw [← stepDraws_iff hrun, stepReport_of_running hrunning]
    cases stepDraws s <;> simp

/-! ### Timer ticks -/

/-- One tick in numbers: down by one, with 0 as the floor (60_exceptions R213). -/
theorem countDown_toNat (b : Byte) : (countDown b).toNat = b.toNat - 1 := by
  by_cases h : 0 < b.toNat
  · rw [countDown, if_pos h]
    bv_omega
  · rw [countDown, if_neg h]
    show 0 = b.toNat - 1
    omega

theorem countDown_eq_ofNat (b : Byte) : countDown b = BitVec.ofNat 8 (b.toNat - 1) := by
  rw [← countDown_toNat, BitVec.ofNat_toNat, BitVec.setWidth_eq]

/-- Settles O12: the two counts are the model's count in numbers. -/
theorem timerTickCountsBothDown : Obligations.TimerTickCountsBothDown := by
  intro s
  refine ⟨_, rfl, (countDown_toNat s.dt).trans ?_, (countDown_toNat s.st).trans ?_, rfl⟩
  · split <;> omega
  · split <;> omega

theorem afterTicks_zero (s : State) : afterTicks 0 s = s := by
  simp [afterTicks]

/-- One tick and then `n` are `n + 1` ticks. -/
theorem afterTicks_timerTickEvent (n : Nat) (s : State) :
    afterTicks n (timerTickEvent s) = afterTicks (n + 1) s := by
  have hcount (b : Byte) : (countDown b).toNat - n = b.toNat - (n + 1) := by
    rw [countDown_toNat]
    omega
  simp only [afterTicks, timerTickEvent, State.setSt_dt, State.setDt_dt, State.setSt_st, hcount]
  rfl

theorem run_succ_of_step {s t : State} (h : step s = .next t) (n : Nat) :
    Host.Core.run Sys2Proof.core (n + 1) s = Host.Core.run Sys2Proof.core n t := by
  have hcore : Sys2Proof.core.step s = .next t := h
  simp only [Host.Core.run, hcore]

/-- Settles O13, by induction on the number of ticks that wait. -/
theorem runOfTicksReachesZero : Obligations.RunOfTicksReachesZero := by
  intro n rest s hcalls
  induction n generalizing s with
  | zero =>
    have hsame : s.setCalls rest = s := by rw [State.setCalls, ← show s.env.calls = rest from hcalls]; rfl
    exact congrArg Host.Outcome.next (hsame.symm.trans (afterTicks_zero _).symm)
  | succ n ih =>
    have hstep : step s = .next (timerTickEvent (s.setCalls (List.replicate n .timerTick ++ rest))) :=
      step_of_call hcalls
    rw [run_succ_of_step hstep]
    refine (ih _ rfl).trans ?_
    exact congrArg Host.Outcome.next (afterTicks_timerTickEvent n (s.setCalls rest))

/-! ### Key events outside a wait, and ClearDirty -/

/-- Settles O15: the condition of the statement excludes the one case in which a wait ends. -/
theorem keyEventOtherwiseIgnored : Obligations.KeyEventOtherwiseIgnored := by
  intro s k hother
  rcases keyEvent_cases k s with ⟨x, hwait, hk, -⟩ | ⟨-, heq⟩
  · exact (hother.elim (Nat.not_le_of_lt hk) fun hne => hne x hwait).elim
  · exact congrArg Host.Outcome.next heq

/-- Settles O16: by definition of the event. -/
theorem clearDirtyOnly : Obligations.ClearDirtyOnly := fun _ => rfl

/-! ### Consecutive bytes, read back one by one -/

theorem Memory.read_writeBytes_of_lt {m : Memory} {a k : Nat} {xs : List Byte} (hwf : m.wf)
    (hin : a + xs.length ≤ Config.memSize) (hk : k < xs.length) : (m.writeBytes a xs).read (a + k) = xs.getD k 0 := by
  rw [Memory.read_writeBytes hwf hin, if_pos ⟨Nat.le_add_right a k, Nat.add_lt_add_left hk a⟩,
    Nat.add_sub_cancel_left]

theorem Memory.read_writeBytes_outside {m : Memory} {a d : Nat} {xs : List Byte} (hwf : m.wf)
    (hin : a + xs.length ≤ Config.memSize) (hd : d < a ∨ a + xs.length ≤ d) :
    (m.writeBytes a xs).read d = m.read d := by
  rw [Memory.read_writeBytes hwf hin, if_neg (by omega)]

/-! ### Reset and Load -/

theorem length_font : Config.font.length = 80 := by decide

theorem resetByte_eq_font (a : Nat) : Config.resetByte a = Config.font.getD a 0 := by
  simp [Config.resetByte]

theorem resetByte_of_ge {a : Nat} (h : 80 ≤ a) : Config.resetByte a = 0 := by
  rw [resetByte_eq_font, List.getD_eq_default _ _ (length_font.trans_le h)]

/-- Settles O17: the values of the reset state, one by one. -/
theorem resetFromAnyState : Obligations.ResetFromAnyState := by
  intro s
  refine ⟨_, rfl, ?regs, rfl, rfl, rfl, ?stk, rfl, rfl, rfl, ?font, ?zeros, length_font, ?fb, rfl, rfl,
    Memory.wf_nil⟩
  case regs => exact fun z => Vector.getElem_replicate z.isLt
  case stk => exact fun k hk => Vector.getElem_replicate hk
  case font => exact fun a _ => resetByte_eq_font a
  case zeros => exact fun a ha => resetByte_of_ge ha
  case fb => exact fun x y => Framebuffer.pixel_blank x y

theorem fetch_at_progBase {t : State} (hpc : t.pc = 0x200#16) :
    fetch t = some (t.mem.read 0x200 ++ t.mem.read 0x201) := by
  have hlt : t.pc.toNat < 0xFFF := by rw [hpc]; decide
  rw [fetch_of_lt hlt, hpc]
  rfl

/-- Settles O18: a Load changes memory at most, so PC and the status are those of Reset. -/
theorem firstFetchIsAtProgBase : Obligations.FirstFetchIsAtProgBase := by
  intro s t bytes h
  change loadEvent bytes (resetEvent s) = .next t at h
  rcases loadEvent_cases bytes (resetEvent s) with ⟨hstarted, -⟩ | ⟨-, -, heq⟩ | ⟨-, -, heq⟩
  · cases hstarted
  · rw [heq] at h; cases h
    exact ⟨rfl, fetch_at_progBase rfl⟩
  · rw [heq] at h; cases h
    exact ⟨rfl, fetch_at_progBase rfl⟩

theorem loadEvent_of_short {bytes : List Byte} {s : State} (hfresh : s.env.started = false)
    (hlen : bytes.length ≤ 3584) : loadEvent bytes s = .next (s.setMem (s.mem.writeBytes 0x200 bytes)) := by
  simp [loadEvent, hfresh, loadReport_ok.mpr hlen]

/-- Settles O19: 3584 bytes from 0x200 on end at the end of memory, so each is read back where it was stored. -/
theorem loadWritesTheRom : Obligations.LoadWritesTheRom := by
  intro s bytes hfresh hwf hlen
  have hin : 0x200 + bytes.length ≤ Config.memSize := by simp only [Config.memSize]; omega
  exact ⟨loadReport_ok.mpr hlen, _, loadEvent_of_short hfresh hlen, rfl, Memory.wf_writeBytes hwf hin,
    fun _ => Memory.read_writeBytes_of_lt hwf hin, fun _ => Memory.read_writeBytes_outside hwf hin⟩

/-- Settles O20: the report of a long Load is LoadError, and the started note is looked at before the report. -/
theorem loadThatIsRefused : Obligations.LoadThatIsRefused := by
  intro s bytes
  refine ⟨fun hfresh hlong => ?_, fun hstarted => ?_⟩
  · have hreport := loadReport_loadError.mpr hlong
    exact ⟨hreport, by simp [hostCall, loadEvent, hfresh, hreport]⟩
  · simp [hostCall, loadEvent, hstarted]

/-- Settles O21: the word at 0x200 is 0x0000, a legacy call. -/
theorem stepWithNothingLoadedIsFatal : Obligations.StepWithNothingLoadedIsFatal := by
  have hfetch : fetch State.reset = some 0x0000#16 := by decide
  have hdec : decode 0x0000#16 = .ok (.sys 0x000#12) := by decide
  have hcalls : State.reset.env.calls = [] := rfl
  rw [Obligations.StepWithNothingLoadedIsFatal, step_of_noCalls hcalls, stepEvent_of_decode_ok rfl hfetch hdec,
    exec_sys]
  rfl

end Sys2Proof.Machine
end

section
/-! PROOFS. Arithmetic and logic (41_arith_logic). Every meaning writes V[X], or V[X] and then VF, and advances; the
two shapes have one frame lemma each, and the results and flags are compared as numbers. -/

namespace Sys2Proof.Machine

open Sys2Proof.Claims

/-! ### The two shapes: a result, or a result and a flag -/

theorem onlyRegs_setReg (s : State) (x : RegIx) (b : Byte) : OnlyRegs [x] s (s.setReg x b).advance := by
  refine ⟨fun z hz => ?_, rfl⟩
  rw [State.reg_advance, State.reg_setReg, if_neg (by simpa using hz)]

theorem reg_setReg_advance (s : State) (x : RegIx) (b : Byte) : (s.setReg x b).advance.reg x = b := by
  simp

theorem onlyRegs_setRegFlag (s : State) (x : RegIx) (r : Byte) (f : Bool) :
    OnlyRegs [x, 15] s (s.setRegFlag x r f).advance := by
  refine ⟨fun z hz => ?_, rfl⟩
  simp only [List.mem_cons, List.not_mem_nil, or_false, not_or] at hz
  rw [State.reg_advance, State.reg_setRegFlag, if_neg hz.2, if_neg hz.1]

theorem reg_setRegFlag_advance {x : RegIx} (hx : x ≠ 15) (s : State) (r : Byte) (f : Bool) :
    (s.setRegFlag x r f).advance.reg x = r := by
  simp [hx]

/-- VF is written last, so it holds the flag whatever X is (R100 (c)). -/
theorem flag_setRegFlag_advance (s : State) (x : RegIx) (r : Byte) (f : Bool) :
    (s.setRegFlag x r f).advance.reg 15 = flagByte f := by
  simp

/-! ### The flags -/

theorem flagByte_carryOut (a b : Byte) :
    flagByte (carryOut a b) = if 255 < a.toNat + b.toNat then 1#8 else 0#8 := by
  by_cases h : 255 < a.toNat + b.toNat <;> simp [flagByte, carryOut, h]

theorem flagByte_noBorrow (a b : Byte) : flagByte (noBorrow a b) = if a.toNat < b.toNat then 0#8 else 1#8 := by
  by_cases h : a.toNat < b.toNat
  · simp [flagByte, noBorrow, h]
  · simp [flagByte, noBorrow, h, Nat.le_of_not_lt h]

theorem flagByte_toNat (f : Bool) : (flagByte f).toNat = f.toNat := by
  cases f <;> rfl

theorem flagByte_shiftedOutRight (a : Byte) : (flagByte (shiftedOutRight a)).toNat = a.toNat % 2 := by
  rw [flagByte_toNat, shiftedOutRight_eq]
  rcases Nat.mod_two_eq_zero_or_one a.toNat with h | h <;> simp [h]

theorem flagByte_shiftedOutLeft (a : Byte) : (flagByte (shiftedOutLeft a)).toNat = a.toNat / 128 := by
  have := a.isLt
  rw [flagByte_toNat, shiftedOutLeft_eq]
  by_cases h : 128 ≤ a.toNat
  · rw [decide_eq_true h]
    show 1 = a.toNat / 128
    omega
  · rw [decide_eq_false h]
    show 0 = a.toNat / 128
    omega

/-- Flooring at 0 is what natural subtraction does. -/
theorem floorSub_toInt (a b : Byte) : ((floorSub a b).toNat : Int) = max 0 ((a.toNat : Int) - b.toNat) := by
  rw [floorSub_toNat]
  omega

/-! ### The obligations -/

/-- Settles O22: both write V[X] and advance, with no flag. -/
theorem loadAndAddImmediate : Obligations.LoadAndAddImmediate := by
  intro x nn s
  refine ⟨⟨_, rfl, reg_setReg_advance s x nn, rfl, onlyRegs_setReg s x nn⟩,
    ⟨_, rfl, ?sum, rfl, onlyRegs_setReg s x _⟩⟩
  case sum => rw [reg_setReg_advance, sum8_toNat]

/-- Settles O23: each writes V[X] and advances, and the bits of the result are the operation's on the bits. -/
theorem copyAndLogic : Obligations.CopyAndLogic := by
  intro x y s
  refine ⟨⟨_, rfl, reg_setReg_advance s x _, rfl, onlyRegs_setReg s x _⟩,
    ⟨_, rfl, rfl, onlyRegs_setReg s x _, fun b _ => ?or⟩, ⟨_, rfl, rfl, onlyRegs_setReg s x _, fun b _ => ?and⟩,
    ⟨_, rfl, rfl, onlyRegs_setReg s x _, fun b _ => ?xor⟩⟩
  case or => rw [reg_setReg_advance, BitVec.getLsbD_or]
  case and => rw [reg_setReg_advance, BitVec.getLsbD_and]
  case xor => rw [reg_setReg_advance, BitVec.getLsbD_xor]

/-- Settles O24: the sum is written before VF, so VF holds the carry also where X is 15. -/
theorem addWithCarryOut : Obligations.AddWithCarryOut := by
  intro x y s
  refine ⟨_, rfl, fun hx => ?sum, ?carry, rfl, onlyRegs_setRegFlag s x _ _⟩
  case sum => rw [reg_setRegFlag_advance hx, sum8_toNat]
  case carry => rw [flag_setRegFlag_advance, flagByte_carryOut]

/-- Settles O25: the difference is written before VF, so VF holds the flag also where X is 15. -/
theorem subtractFloorsAtZero : Obligations.SubtractFloorsAtZero := by
  intro x y s
  refine ⟨⟨_, rfl, fun hx => ?sub, ?borrow, rfl, onlyRegs_setRegFlag s x _ _⟩,
    ⟨_, rfl, fun hx => ?subn, ?borrown, rfl, onlyRegs_setRegFlag s x _ _⟩⟩
  case sub => rw [reg_setRegFlag_advance hx, floorSub_toInt]
  case borrow => rw [flag_setRegFlag_advance, flagByte_noBorrow]
  case subn => rw [reg_setRegFlag_advance hx, floorSub_toInt]
  case borrown => rw [flag_setRegFlag_advance, flagByte_noBorrow]

/-- Settles O26: the result is written before VF, so VF holds the bit moved out also where X is 15. -/
theorem shiftsInPlace : Obligations.ShiftsInPlace := by
  intro x y s
  refine ⟨⟨_, rfl, fun hx => ?half, ?low, rfl, onlyRegs_setRegFlag s x _ _⟩,
    ⟨_, rfl, fun hx => ?double, ?high, rfl, onlyRegs_setRegFlag s x _ _⟩⟩
  case half => rw [reg_setRegFlag_advance hx, halve_toNat]
  case low => rw [flag_setRegFlag_advance, flagByte_shiftedOutRight]
  case double => rw [reg_setRegFlag_advance hx, double_toNat]
  case high => rw [flag_setRegFlag_advance, flagByte_shiftedOutLeft]

/-- Settles O27: a byte under a mask has no bit outside it, whichever byte the draw delivers. -/
theorem randomUnderMask : Obligations.RandomUnderMask := by
  intro x nn s
  refine ⟨_, rfl, fun r rest hrands => ⟨?fixed, ?used⟩, ?mask, fun z hz => ?others, rfl, rfl⟩
  case fixed => rw [reg_setReg_advance, State.randByte, hrands, List.headD_cons]
  case used => rw [State.advance_env, State.setReg_env, State.afterDraw_env, hrands, List.tail_cons]
  case mask => rw [reg_setReg_advance, BitVec.and_assoc, BitVec.and_not_self]; exact BitVec.and_zero
  case others => rw [State.reg_advance, State.reg_setReg, if_neg hz, State.reg_afterDraw]

end Sys2Proof.Machine
end

section
/-! PROOFS. Control flow: jumps, skips, and the return stack (42_control_flow). -/

namespace Sys2Proof.Machine

/-! ### Jumps -/

theorem fetch_eq_none_iff {s : State} : fetch s = none ↔ 0xFFF ≤ s.pc.toNat := by
  refine ⟨fun h => ?_, fetch_of_ge⟩
  by_contra hlt
  rw [fetch_of_lt (Nat.lt_of_not_le hlt)] at h
  cases h

/-- The one 12-bit target from which no word can be fetched is the highest. -/
theorem fetch_setPc_zextNNN_iff {nnn : Addr12} {s : State} :
    fetch (s.setPc (zextNNN nnn)) = none ↔ nnn = 0xFFF#12 := by
  have := nnn.isLt
  rw [fetch_eq_none_iff, State.setPc_pc, zextNNN_toNat, ← BitVec.toNat_inj]
  show 0xFFF ≤ nnn.toNat ↔ nnn.toNat = 0xFFF
  omega

/-- Settles O28: the jump replaces PC alone, and the fetch fails from 0xFFF on. -/
theorem jumpTargets : Obligations.JumpTargets := by
  intro nnn s
  refine ⟨⟨_, rfl, zextNNN_toNat nnn, rfl, fetch_setPc_zextNNN_iff⟩,
    ⟨_, rfl, offsetTarget_toNat nnn (s.reg 0), rfl, ?_⟩⟩
  rw [fetch_eq_none_iff, State.setPc_pc, offsetTarget_toNat]

/-! ### Skips -/

theorem skipIf_eq (s : State) (c : Bool) : s.skipIf c = { s with pc := s.pc + if c then 4#16 else 2#16 } := by
  cases c <;> rfl

/-- Settles O29: both are a skip on the comparison of V[X] with NN. -/
theorem skipsOnImmediate : Obligations.SkipsOnImmediate := by
  intro x nn s
  refine ⟨(congrArg Host.Outcome.next (skipIf_eq s _)).trans ?eq,
    (congrArg Host.Outcome.next (skipIf_eq s _)).trans ?ne⟩
  case eq => simp only [beq_iff_eq]
  case ne => simp only [bne_iff_ne]

/-- Settles O30: both are a skip on the comparison of V[X] with V[Y]. -/
theorem skipsOnRegisters : Obligations.SkipsOnRegisters := by
  intro x y s
  refine ⟨(congrArg Host.Outcome.next (skipIf_eq s _)).trans ?eq,
    (congrArg Host.Outcome.next (skipIf_eq s _)).trans ?ne⟩
  case eq => simp only [beq_iff_eq]
  case ne => simp only [bne_iff_ne, ne_eq, ite_not]

/-! ### The return stack -/

/-- Settles O31: the push writes the entry at SP and no other. -/
theorem callPushesReturnAddress : Obligations.CallPushesReturnAddress := by
  intro nnn s h
  refine ⟨_, exec_call_of_lt h nnn, ?pushed, ?others, rfl, zextNNN_toNat nnn, rfl⟩
  case pushed => exact Vector.getElem_set_self h
  case others => exact fun k hk hne => Vector.getElem_set_ne h hk (Ne.symm hne)

theorem exec_ret_of_succ {s : State} {k : Nat} (hk : k < 16) (h : s.sp.val = k + 1) :
    exec .ret s = .next { s with sp := ⟨k, Nat.lt_succ_of_lt hk⟩, pc := s.stk[k]'hk } := by
  have hpos : 0 < s.sp.val := h ▸ Nat.succ_pos k
  have hpred : s.sp.val - 1 = k := by omega
  rw [exec_ret_of_pos hpos]
  simp only [hpred]

/-- Settles O32: the entry below SP becomes PC, and the stack is not written. -/
theorem returnPopsReturnAddress : Obligations.ReturnPopsReturnAddress := by
  intro s k hk h
  exact ⟨_, exec_ret_of_succ hk h, rfl, rfl, rfl⟩

/-- Settles O33: the return pops the entry the call has just written. -/
theorem callThenReturn : Obligations.CallThenReturn := by
  intro nnn s h
  refine ⟨_, _, exec_call_of_lt h nnn, exec_ret_of_succ h rfl, ?back, rfl, ?others⟩
  case back => exact Vector.getElem_set_self h
  case others => exact fun k hk hne => Vector.getElem_set_ne h hk (Ne.symm hne)

/-- Settles O34: the two faults are the full and the empty stack; at depth 15 one entry is free. -/
theorem stackFaults : Obligations.StackFaults := by
  intro nnn s
  refine ⟨fun hfull => ?_, fun hempty => ?_, fun hlast => ?_⟩
  · rw [exec_call_of_full hfull, raiseBy_eq]
    rfl
  · rw [exec_ret_of_empty hempty, raiseBy_eq]
    rfl
  · have h : s.sp.val < 16 := by omega
    exact ⟨_, exec_call_of_lt h nnn, congrArg Nat.succ hlast, rfl⟩

end Sys2Proof.Machine
end

section
/-! PROOFS. Display (43_display). The picture after a draw is told pixel by pixel through the statements' own sprite
predicate, which is the bitmap the draw is proved to XOR; the flag is the collision. -/

namespace Sys2Proof.Machine

open Sys2Proof.Claims

/-! ### The sprite as the statements describe it -/

theorem rowBit_iff {b : Byte} {x0 x : Nat} :
    rowBit b x0 x = true ↔ ∃ c, c < 8 ∧ b.getLsbD (7 - c) = true ∧ x = x0 + c := by
  simp only [rowBit, Bool.and_eq_true, decide_eq_true_eq]
  constructor
  · rintro ⟨⟨hlo, hhi⟩, hbit⟩
    exact ⟨x - x0, by omega, hbit, by omega⟩
  · rintro ⟨c, hc, hbit, rfl⟩
    exact ⟨⟨by omega, by omega⟩, by rwa [Nat.add_sub_cancel_left]⟩

theorem spriteBit_readBytes_iff {m : Memory} {i n x0 y0 x y : Nat} :
    spriteBit (m.readBytes i n) x0 y0 x y = true ↔
      ∃ r, r < n ∧ rowBit (m.read (i + r)) x0 x = true ∧ y = y0 + r := by
  simp only [spriteBit, Bool.and_eq_true, decide_eq_true_eq, Memory.length_readBytes]
  constructor
  · rintro ⟨⟨hlo, hhi⟩, hbit⟩
    have hr : y - y0 < n := by omega
    exact ⟨y - y0, hr, by rwa [Memory.getD_readBytes _ _ _ _ hr] at hbit, by omega⟩
  · rintro ⟨r, hr, hbit, rfl⟩
    exact ⟨⟨by omega, by omega⟩, by rwa [Nat.add_sub_cancel_left, Memory.getD_readBytes _ _ _ _ hr]⟩

theorem spriteHas_iff {s : State} {x y : RegIx} {n : Fin 16} {px py : Nat} :
    SpriteHas s x y n px py ↔
      spriteBit (s.mem.readBytes s.i.toNat n.val) (s.reg x).toNat (s.reg y).toNat px py = true := by
  rw [spriteBit_readBytes_iff]
  constructor
  · rintro ⟨r, c, hr, hc, hbit, hpx, hpy⟩
    exact ⟨r, hr, rowBit_iff.mpr ⟨c, hc, hbit, hpx⟩, hpy⟩
  · rintro ⟨r, hr, hrow, hpy⟩
    obtain ⟨c, hc, hbit, hpx⟩ := rowBit_iff.mp hrow
    exact ⟨r, c, hr, hc, hbit, hpx, hpy⟩

theorem onGrid_iff {px py : Nat} : OnGrid px py ↔ onScreen px py = true := by
  simp only [OnGrid, onScreen, decide_eq_true_eq, Config.fbH, Config.fbW]
  exact and_comm

theorem onGrid_of_fbOut {s : State} {px py : Nat} (h : s.fbOut px py = true) : OnGrid px py := by
  rw [onGrid_iff]
  by_contra hoff
  rw [State.fbOut, Framebuffer.pixel_offScreen (Bool.eq_false_iff.mpr hoff)] at h
  cases h

theorem inMemory_iff {s : State} {len : Nat} : InMemory s len ↔ touchesOutside s.i.toNat len = false := by
  rw [touchesOutside_eq_false, InMemory, Config.memSize]
  omega

/-! ### The state after a draw -/

section Drawn

variable {s : State} {x y : RegIx} {n : Fin 16}

theorem exec_drw_of_inMemory (h : InMemory s n.val) : exec (.drw x y n) s = .next (drawn x y n s) :=
  exec_drw_inside (inMemory_iff.mp h) x y

theorem drawn_reg {z : RegIx} (hz : z ≠ 15) : (drawn x y n s).reg z = s.reg z :=
  (State.reg_setReg _ _ _ _).trans (if_neg hz)

theorem drawn_fbOut {px py : Nat} :
    (drawn x y n s).fbOut px py = (s.fbOut px py ^^ (onScreen px py &&
      spriteBit (s.mem.readBytes s.i.toNat n.val) (s.reg x).toNat (s.reg y).toNat px py)) :=
  drawSprite_pixel _ _ _ _ _ _

theorem drawn_fbOut_of_set {px py : Nat} (hgrid : OnGrid px py) (hset : SpriteHas s x y n px py) :
    (drawn x y n s).fbOut px py = !s.fbOut px py := by
  rw [drawn_fbOut, onGrid_iff.mp hgrid, spriteHas_iff.mp hset, Bool.and_self, Bool.xor_true]

theorem drawn_fbOut_of_clear {px py : Nat} (h : ¬ (OnGrid px py ∧ SpriteHas s x y n px py)) :
    (drawn x y n s).fbOut px py = s.fbOut px py := by
  rw [onGrid_iff, spriteHas_iff, ← Bool.and_eq_true] at h
  rw [drawn_fbOut, Bool.eq_false_iff.mpr h, Bool.xor_false]

/-- The draw's flag is the collision: a lit pixel is on the grid, so erasing one needs no test for it. -/
theorem collides_iff : Collides s x y n ↔
    (drawSprite s.fb (s.reg x).toNat (s.reg y).toNat (s.mem.readBytes s.i.toNat n.val)).2 = true := by
  rw [drawSprite_hit]
  constructor
  · rintro ⟨px, py, -, hset, hlit⟩
    exact ⟨px, py, spriteHas_iff.mp hset, hlit⟩
  · rintro ⟨px, py, hset, hlit⟩
    exact ⟨px, py, onGrid_of_fbOut hlit, spriteHas_iff.mpr hset, hlit⟩

theorem drawn_flag : (drawn x y n s).reg 15 = flagByte
    (drawSprite s.fb (s.reg x).toNat (s.reg y).toNat (s.mem.readBytes s.i.toNat n.val)).2 :=
  (State.reg_setReg _ _ _ _).trans (if_pos rfl)

theorem drawn_flag_of_collides (h : Collides s x y n) : (drawn x y n s).reg 15 = 1 := by
  rw [drawn_flag, collides_iff.mp h, flagByte_true]

theorem drawn_flag_of_not_collides (h : ¬ Collides s x y n) : (drawn x y n s).reg 15 = 0 := by
  rw [collides_iff, Bool.not_eq_true] at h
  rw [drawn_flag, h, flagByte_false]

/-- A second draw has the same sprite at the same origin, where the flag is no coordinate. -/
theorem spriteHas_drawn (hx : x ≠ 15) (hy : y ≠ 15) {px py : Nat} :
    SpriteHas (drawn x y n s) x y n px py ↔ SpriteHas s x y n px py := by
  rw [SpriteHas, drawn_reg hx, drawn_reg hy]
  rfl

end Drawn

/-! ### The obligations -/

/-- Settles O36: the picture becomes the blank one, dirty with it. -/
theorem clearDisplay : Obligations.ClearDisplay := fun _ =>
  ⟨_, rfl, Framebuffer.pixel_blank, rfl, rfl, rfl⟩

/-- Settles O37: pixel by pixel and flag by flag, for the one state a draw inside memory completes to. -/
theorem drawXorsTheSprite : Obligations.DrawXorsTheSprite := by
  intro x y n s hin
  exact ⟨_, exec_drw_of_inMemory hin, fun _ _ => drawn_fbOut_of_set,
    fun _ _ hclear => drawn_fbOut_of_clear fun h => hclear h.2, drawn_flag_of_collides, drawn_flag_of_not_collides,
    rfl, rfl, fun _ => drawn_reg, rfl⟩

/-- Settles O38: each pixel is flipped twice or never. -/
theorem drawTwiceRestoresFramebuffer : Obligations.DrawTwiceRestoresFramebuffer := by
  intro x y n s hx hy hin
  refine ⟨_, _, exec_drw_of_inMemory hin, exec_drw_of_inMemory (s := drawn x y n s) hin,
    Framebuffer.ext_pixel fun px py => ?_⟩
  show (drawn x y n (drawn x y n s)).fbOut px py = s.fbOut px py
  have hsame := spriteHas_drawn (s := s) (n := n) hx hy (px := px) (py := py)
  by_cases h : OnGrid px py ∧ SpriteHas s x y n px py
  · rw [drawn_fbOut_of_set h.1 (hsame.mpr h.2), drawn_fbOut_of_set h.1 h.2, Bool.not_not]
  · rw [drawn_fbOut_of_clear (by rwa [hsame]), drawn_fbOut_of_clear h]

/-- Over a blank part of the grid a second draw erases exactly what the first one lit. -/
theorem collides_drawn_iff {s : State} {x y : RegIx} {n : Fin 16} (hx : x ≠ 15) (hy : y ≠ 15)
    (hblank : ∀ px py, SpriteHas s x y n px py → s.fbOut px py = false) :
    Collides (drawn x y n s) x y n ↔ ∃ px py, OnGrid px py ∧ SpriteHas s x y n px py := by
  constructor
  · rintro ⟨px, py, hgrid, hset, -⟩
    exact ⟨px, py, hgrid, (spriteHas_drawn hx hy).mp hset⟩
  · rintro ⟨px, py, hgrid, hset⟩
    refine ⟨px, py, hgrid, (spriteHas_drawn hx hy).mpr hset, ?_⟩
    rw [drawn_fbOut_of_set hgrid hset, hblank px py hset]
    rfl

/-- Settles O39: nothing lit lies under the sprite before the first draw, and after it exactly what the first draw
lit. -/
theorem drawTwiceFlags : Obligations.DrawTwiceFlags := by
  intro x y n s hx hy hin hblank
  have hfirst : ¬ Collides s x y n := by
    rintro ⟨px, py, -, hset, hlit⟩
    rw [hblank px py hset] at hlit
    cases hlit
  refine ⟨_, _, exec_drw_of_inMemory hin, exec_drw_of_inMemory (s := drawn x y n s) hin,
    drawn_flag_of_not_collides hfirst, ?_⟩
  rw [← collides_drawn_iff hx hy hblank]
  by_cases h : Collides (drawn x y n s) x y n
  · exact ⟨iff_of_true (drawn_flag_of_collides h) h, .inl (drawn_flag_of_collides h)⟩
  · have hzero := drawn_flag_of_not_collides h
    exact ⟨iff_of_false (by rw [hzero]; decide) h, .inr hzero⟩

/-- Settles O40: each access tests its highest address before anything else. -/
theorem dataOutsideMemoryIsFatal : Obligations.DataOutsideMemoryIsFatal := by
  intro x y n s
  have hout {len : Nat} (hpos : 0 < len) (h : 0xFFF < s.i.toNat + len - 1) : touchesOutside s.i.toNat len = true :=
    touchesOutside_eq_true.mpr ⟨hpos, by rw [Config.memSize]; omega⟩
  refine ⟨fun h => ?draw, fun h => ?bcd, fun h => ⟨?dump, ?load⟩⟩
  case draw =>
    rw [inMemory_iff, Bool.not_eq_false] at h
    exact exec_drw_outside h x y
  case bcd => exact exec_ldBVx_outside (hout (by decide) h) x
  case dump => exact exec_ldMemVx_outside (hout (Nat.succ_pos _) h)
  case load => exact exec_ldVxMem_outside (hout (Nat.succ_pos _) h)

end Sys2Proof.Machine
end

section
/-! PROOFS. Keys, timers, the address register and the memory block (44_input, 45_timers, 46_memory_block). -/

namespace Sys2Proof.Machine

open Sys2Proof.Claims

/-! ### Keys -/

theorem keyDown_of_sample {s : State} {keys : Word} {rest : List Word} (h : s.env.keySamples = keys :: rest)
    (k : Nat) : s.keyDown k = keys.getLsbD k := by
  rw [State.keyDown, h, List.headD_cons]

/-- Settles O41: both instructions look at the same sample, so one level decides both. -/
theorem keySkips : Obligations.KeySkips := by
  intro x s hkey
  have hnum : noSuchKey (s.reg x) = false := noSuchKey_eq_false.mpr (Nat.lt_succ_of_le hkey)
  refine ⟨_, _, exec_skp_key hnum, exec_sknp_key hnum,
    fun keys rest hsample => ⟨?level, ?used⟩, ?opposite, rfl, rfl⟩
  case level => rw [State.skipIf_pc, State.afterSample_pc, keyDown_of_sample hsample]
  case used => rw [State.skipIf_env, State.afterSample_env, hsample, List.tail_cons]
  case opposite =>
    cases s.keyDown (s.reg x).toNat
    · exact .inr ⟨rfl, rfl⟩
    · exact .inl ⟨rfl, rfl⟩

/-- Settles O42: the number is tested before the sample. -/
theorem keyNumberAboveFifteenIsFatal : Obligations.KeyNumberAboveFifteenIsFatal := by
  intro x s hkey
  have hnum : noSuchKey (s.reg x) = true := noSuchKey_eq_true.mpr hkey
  exact ⟨exec_skp_noKey hnum, exec_sknp_noKey hnum⟩

theorem run_of_ne_running {s : State} (hcalls : s.env.calls = []) (hstop : s.status ≠ .running) (n : Nat) :
    Host.Core.run Sys2Proof.core n s = .next s := by
  induction n with
  | zero => rfl
  | succ n ih => rw [run_succ_of_step (waitingAndStoppedStepsChangeNothing s hcalls hstop), ih]

/-- Settles O43: FX0A changes the status alone, and a Step in a status other than Running changes nothing. -/
theorem keyWaitBegins : Obligations.KeyWaitBegins := fun x s =>
  ⟨rfl, fun n hcalls => run_of_ne_running (s := s.setStatus (.awaitingKey x)) hcalls (by simp) n⟩

/-! ### Timers -/

theorem tone_iff {s : State} : s.tone = true ↔ 0 < s.st.toNat := by
  simp only [State.tone, decide_eq_true_eq]

/-- Settles O44: each writes one field and advances, and the tone is a function of ST. -/
theorem timerInstructions : Obligations.TimerInstructions := fun x s =>
  ⟨⟨_, rfl, reg_setReg_advance s x s.dt, rfl, onlyRegs_setReg s x s.dt⟩, rfl, ⟨_, rfl, rfl, tone_iff⟩⟩

/-! ### The address register -/

/-- Settles O45: each writes I and advances. -/
theorem addressRegisterInstructions : Obligations.AddressRegisterInstructions := fun nnn x s =>
  ⟨⟨_, rfl, zextNNN_toNat nnn, rfl, rfl⟩, ⟨_, rfl, addToI_toNat s.i (s.reg x), rfl, rfl⟩,
    ⟨_, rfl, glyphAddress_toNat (s.reg x), rfl, rfl⟩⟩

/-! ### The memory block -/

theorem not_touchesOutside {base k : Nat} (h : base + k ≤ 0xFFF) : touchesOutside base (k + 1) = false :=
  touchesOutside_eq_false.mpr (.inr (Nat.succ_le_succ h))

/-- Each digit is below 256, so its byte holds it whole. -/
theorem bcdDigits_getD_toNat (b : Byte) :
    ((bcdDigits b).getD 0 0).toNat = b.toNat / 100 ∧ ((bcdDigits b).getD 1 0).toNat = b.toNat / 10 % 10 ∧
      ((bcdDigits b).getD 2 0).toNat = b.toNat % 10 := by
  have := b.isLt
  refine ⟨Nat.mod_eq_of_lt ?_, Nat.mod_eq_of_lt ?_, Nat.mod_eq_of_lt ?_⟩ <;> omega

/-- Settles O46: the digits are three consecutive bytes; the range is tested before the first is written. -/
theorem bcdStoresThreeDigits : Obligations.BcdStoresThreeDigits := by
  intro x s hwf
  refine ⟨fun hin => ?stored, fun hout => ?refused⟩
  case stored =>
    have hbytes : s.i.toNat + (bcdDigits (s.reg x)).length ≤ Config.memSize := Nat.succ_le_succ hin
    have hread {k : Nat} (hk : k < 3) :
        (s.mem.writeBytes s.i.toNat (bcdDigits (s.reg x))).read (s.i.toNat + k) = (bcdDigits (s.reg x)).getD k 0 :=
      Memory.read_writeBytes_of_lt hwf hbytes hk
    obtain ⟨hundreds, tens, ones⟩ := bcdDigits_getD_toNat (s.reg x)
    exact ⟨_, exec_ldBVx_inside (not_touchesOutside hin) x,
      (congrArg BitVec.toNat (hread (k := 0) (by decide))).trans hundreds,
      (congrArg BitVec.toNat (hread (k := 1) (by decide))).trans tens,
      (congrArg BitVec.toNat (hread (k := 2) (by decide))).trans ones,
      fun _ => Memory.read_writeBytes_outside hwf hbytes, rfl, rfl⟩
  case refused =>
    have htouch : touchesOutside s.i.toNat 3 = true := touchesOutside_eq_true.mpr ⟨by decide, Nat.succ_lt_succ hout⟩
    exact ⟨_, _, exec_ldBVx_outside htouch x, rfl, rfl, rfl⟩

/-- The bytes of a dump lie inside memory. -/
theorem dump_inside {x : RegIx} {s : State} (hin : s.i.toNat + x.val ≤ 0xFFF) :
    s.i.toNat + (s.regsUpTo x).length ≤ Config.memSize := by
  rw [length_regsUpTo]
  exact Nat.succ_le_succ hin

theorem read_dump {x k : RegIx} {s : State} (hwf : s.mem.wf) (hin : s.i.toNat + x.val ≤ 0xFFF) (hk : k ≤ x) :
    (s.mem.writeBytes s.i.toNat (s.regsUpTo x)).read (s.i.toNat + k.val) = s.reg k := by
  have hlen : k.val < (s.regsUpTo x).length := by
    rw [length_regsUpTo]
    exact Nat.lt_succ_of_le hk
  rw [Memory.read_writeBytes_of_lt hwf (dump_inside hin) hlen, getD_regsUpTo s x k.val hk]

/-- Settles O47: the registers are consecutive bytes inside memory. -/
theorem registerDump : Obligations.RegisterDump := by
  intro x s hwf hin
  refine ⟨_, exec_ldMemVx_inside (not_touchesOutside hin), fun k => read_dump hwf hin,
    fun a ha => ?others, rfl, rfl⟩
  case others => exact Memory.read_writeBytes_outside hwf (dump_inside hin) (by rwa [length_regsUpTo])

/-- Settles O48: the load takes a register from memory exactly where its index is at most X. -/
theorem registerLoad : Obligations.RegisterLoad := by
  intro x s hin
  refine ⟨_, exec_ldVxMem_inside (not_touchesOutside hin), fun k hk => ?loaded, fun k hk => ?kept, rfl, rfl⟩
  case loaded => rw [State.reg_advance, State.reg_loadedRegs, if_pos hk]
  case kept => rw [State.reg_advance, State.reg_loadedRegs, if_neg (not_le_of_gt hk)]

/-- Settles O49: the load reads the bytes the dump has written, because neither moves I. -/
theorem dumpThenLoadRoundTrip : Obligations.DumpThenLoadRoundTrip := by
  intro x s t w hwf hin hdump
  rw [exec_ldMemVx_inside (not_touchesOutside hin)] at hdump
  cases hdump
  obtain ⟨u, hload, hregs, -, -, hrest⟩ := registerLoad x
    { (s.setMem (s.mem.writeBytes s.i.toNat (s.regsUpTo x))).advance with v := w } hin
  exact ⟨u, hload, fun k hk => (hregs k hk).trans (read_dump hwf hin hk), by rw [hrest]⟩

end Sys2Proof.Machine
end

section
/-! PROOFS. Memory as data: the canonical form is unique (20_memory R50). -/

namespace Sys2Proof.Machine.Memory

/-- An address that does not read as its reset content is listed with what it reads as. -/
theorem mem_of_read_ne {m : Memory} {a : Nat} (h : m.read a ≠ Config.resetByte a) : (a, m.read a) ∈ m := by
  induction m with
  | nil => exact absurd rfl h
  | cons c rest ih =>
    obtain ⟨b, w⟩ := c
    by_cases hab : a = b
    · simp [read, hab]
    · rw [read, if_neg hab] at h ⊢
      exact List.mem_cons_of_mem _ (ih h)

/-- In the canonical form the cells are exactly the addresses that differ from their reset content. -/
theorem mem_iff_of_wf {m : Memory} (hwf : m.wf) {c : Host.Cell} :
    c ∈ m ↔ m.read c.1 = c.2 ∧ c.2 ≠ Config.resetByte c.1 := by
  refine ⟨fun hc => ⟨read_of_mem hwf.1 hc, (hwf.2 c hc).2⟩, fun ⟨hread, hne⟩ => ?_⟩
  have hlisted := mem_of_read_ne (hread ▸ hne)
  rwa [hread] at hlisted

/-- Settles O57: memories that read alike list the same cells, and a strictly rising list is determined by them. -/
theorem canonicalMemoryIsUnique : Obligations.CanonicalMemoryIsUnique := by
  intro m m' hwf hwf' hread
  have hcells (c : Host.Cell) : c ∈ m ↔ c ∈ m' := by
    rw [mem_iff_of_wf hwf, mem_iff_of_wf hwf', hread]
  have hirrefl : Std.Irrefl fun c d : Host.Cell => c.1 < d.1 := ⟨fun c => Nat.lt_irrefl c.1⟩
  have hantisymm : Std.Antisymm fun c d : Host.Cell => c.1 < d.1 :=
    ⟨fun _ _ hcd hdc => absurd hcd (Nat.lt_asymm hdc)⟩
  exact hwf.1.eq_of_mem_iff hwf'.1 hcells

end Sys2Proof.Machine.Memory
end
